-- ==== Sys2Proof/Word.lean ====
section
/-! DEFINITION. The engine's machine word and the byte of a bus lane (00_scope.md R6, 20_memory.md R55). -/

namespace Sys2Proof

/-- A 32-bit word: W = 32, "fixed, not a parameter" (00_scope.md R6). -/
abbrev Word := BitVec 32

/-- One byte lane of a host access (20_memory.md R55). -/
abbrev Byte := BitVec 8

end Sys2Proof
end

