-- ==== Sys2Proof/Machine/Operands.lean ====
section
/-! DEFINITION. Values of operand registers as natural numbers: words, bits, lengths, shifts
(00_scope.md R9–R12). Every size is a number of words N or of bits 32N, so the same definitions serve
every build. -/

namespace Sys2Proof.Machine

/-- N = 2K + 2, the words of an operand register (00_scope.md R7). -/
def registerWords (k : Nat) : Nat := 2 * k + 2

/-- 32N, the bits of an operand register. -/
def registerBits (k : Nat) : Nat := 32 * registerWords k

/-- 2^(32N): a register holds a value below it (00_scope.md R9). -/
def registerLimit (k : Nat) : Nat := 2 ^ registerBits k

/-- `wrapN(v)` = v mod 2^(32N) (00_scope.md R12). -/
def wrapN (k v : Nat) : Nat := v % registerLimit k

/-- Word j of v, `v[32j+31:32j]` (00_scope.md R9). -/
def wordOf (v j : Nat) : Word := BitVec.ofNat 32 (v / 2 ^ (32 * j))

/-- v with word j replaced: x − x[32j+31:32j]·2^(32j) + w·2^(32j) (20_memory.md R52). -/
def withWord (v j : Nat) (w : Word) : Nat :=
  v - (wordOf v j).toNat * 2 ^ (32 * j) + w.toNat * 2 ^ (32 * j)

/-- `v[i]` = floor(v / 2^i) mod 2, as a number (00_scope.md R10). -/
def bitOf (v i : Nat) : Nat := v / 2 ^ i % 2

/-- `msb(v)`: the 1-based index of the highest set bit, 0 if v is zero (00_scope.md R11). -/
def msb (v : Nat) : Nat := if v = 0 then 0 else Nat.log2 v + 1

/-- `ulen(v)`: the index of the highest non-zero word plus 1, 0 if v is zero (00_scope.md R11). -/
def ulen (v : Nat) : Nat := (msb v + 31) / 32

/-- v with bit i set: v + (1 − v[i])·2^i (41_representation.md R103). -/
def setBitNat (v i : Nat) : Nat := v + (1 - bitOf v i) * 2 ^ i

/-- v with bit i cleared: v − v[i]·2^i (41_representation.md R104). -/
def clearBitNat (v i : Nat) : Nat := v - bitOf v i * 2 ^ i

/-- `wrapN(v << s)` (41_representation.md R107), written so that a count of 32N or more, for which the
result is 0, is not computed through a number of that many bits. -/
def shiftLeftN (k v s : Nat) : Nat := if registerBits k ≤ s then 0 else wrapN k (v <<< s)

/-- `v >> s` (41_representation.md R108). -/
def shiftRightN (v s : Nat) : Nat := v >>> s

/-- The three-way compare as a word: 0xFFFFFFFF, 0 or 1 for less, equal, greater
(41_representation.md R113). -/
def compareWord (a b : Nat) : Word :=
  if a < b then 0xFFFFFFFF else if a = b then 0 else 1

/-- A truth value as RES holds it: 0 or 1 (41_representation.md R114). -/
def boolWord (b : Bool) : Word := if b then 1 else 0

end Sys2Proof.Machine
end

