-- ==== Sys2Proof/Machine/Arith.lean ====
section
/-! DEFINITION. Modular arithmetic on natural numbers: exponentiation, the extended Euclidean
algorithm, inverses and the Montgomery quantities (00_scope.md R12, R14; 48_gcd_inversion.md R202).
Every recursion is structural, so that a command can be evaluated on numerals. The steps are the model's,
the values the rules' (assumption 10). -/

namespace Sys2Proof.Machine

/-- g^e mod n, by one squaring per bit of e from the top; `fuel` is at least the bit length of e. The
value is the rule's (47_exponentiation.md R190); the steps are not observable (R35). -/
def powModAux (n g : Nat) : (fuel : Nat) → (e : Nat) → Nat
  | 0, _ => 1 % n
  | fuel + 1, e =>
    if e = 0 then 1 % n
    else
      let t := powModAux n g fuel (e / 2)
      if e % 2 = 1 then (t * t % n) * g % n else t * t % n

/-- g^e mod n, with g^0 = 1 (47_exponentiation.md R190). -/
def powMod (g e n : Nat) : Nat := powModAux n g (msb e) e

/-- The loop of the extended Euclidean algorithm, with r and s as 48_gcd_inversion.md R202 writes them;
`fuel` exceeds r1, which falls at every turn. -/
def eeaLoop : (fuel : Nat) → (r0 r1 : Nat) → (s0 s1 : Int) → Nat × Int
  | 0, r0, _, s0, _ => (r0, s0)
  | fuel + 1, r0, r1, s0, s1 =>
    if r1 = 0 then (r0, s0)
    else eeaLoop fuel r1 (r0 - r0 / r1 * r1) s1 (s0 - (r0 / r1 : Nat) * s1)

/-- (gcd(a, b), s0 mod b) of 48_gcd_inversion.md R202, for b ≥ 1. -/
def eea (a b : Nat) : Nat × Nat :=
  let p := eeaLoop (b + 1) a b 1 0
  (p.1, (p.2 % (b : Int)).toNat)

/-- `inv(a, n)`: for gcd(a, n) = 1 and n ≥ 1 the unique y in [0, n) with a·y mod n = 1 mod n
(00_scope.md R12). -/
def invMod (a n : Nat) : Nat := (eea a n).2

/-- The Montgomery radix R = 2^(32·ulen(n)) (00_scope.md R14). -/
def radix (n : Nat) : Nat := 2 ^ (32 * ulen n)

/-- (−inv(n mod r, r)) mod r, the modulus prime for the radix r: n'_w for r = 2^32, n'_R for r = R
(00_scope.md R14, 46_montgomery.md R171). -/
def modulusPrime (n r : Nat) : Nat := (r - invMod (n % r) r) % r

/-- `MontPro(a, b, n)` = a·b·inv(R, n) mod n (00_scope.md R14). -/
def montPro (a b n : Nat) : Nat := a * b * invMod (radix n) n % n

/-- t·inv(R, n) mod n, the value of REDC (46_montgomery.md R173). -/
def redc (t n : Nat) : Nat := t * invMod (radix n) n % n

/-- `NprimeOK_w(n, v)`: (n · v[31:0] + 1) mod 2^32 = 0 (46_montgomery.md R170). -/
def nprimeOkW (n v : Nat) : Bool := decide ((n * (v % 2 ^ 32) + 1) % 2 ^ 32 = 0)

/-- `NprimeOK_R(n, v)`: (n · (v mod R) + 1) mod R = 0 (46_montgomery.md R170). -/
def nprimeOkR (n v : Nat) : Bool := decide ((n * (v % radix n) + 1) % radix n = 0)

end Sys2Proof.Machine
end

