-- ==== Sys2Proof/Config.lean ====
section
/-! DEFINITION. What the spec fixes for every engine, the build of the reset state, and the free values. -/

namespace Sys2Proof.Config

/-- NREG, the number of operand registers (00_scope.md R8, 10_state.md R21). -/
def nreg : Nat := 16

/-- REV, the revision of the CORE command set (00_scope.md R1, 10_state.md R29). -/
def revision : Nat := 1

/-- The size of the register window in bytes, 2^24 (20_memory.md R50). -/
def windowBytes : Nat := 16777216

/-- The offset of word 0 of V0 (20_memory.md R51, R52). -/
def operandBase : Nat := 4096

/-- The K of `State.reset`: the spec's test configuration (00_scope.md R8).
DESIGN CHOICE, assumption 1: K is a parameter of the spec, a field of State here, and every statement
ranges over it. -/
def resetK : Nat := 4

/-- The ENGINE_BASE of `State.reset`.
DESIGN CHOICE, assumption 1: the spec leaves it OPEN (20_memory.md R50). -/
def resetBase : Nat := 0

/-- FREE VALUE: the natural number an operand register takes, modulo 2^(32N), where the spec writes "an
unspecified value in [0, 2^(32N))" (46_montgomery.md R170, 48_gcd_inversion.md R201; assumption 2).
Applied to `State.freeCount`. -/
opaque freeValue : Nat → Nat

/-- FREE VALUE: the word a host reads from RES or the operand window while BUSY = 1
(70_reset_and_hazards.md R280; assumption 3). Applied to `State.freeCount`. -/
opaque freeWord : Nat → Word

end Sys2Proof.Config
end

