-- ==== Sys2Proof/Syntax.lean ====
section
/-! DEFINITION. The commands of the CORE command set, revision 1: one constructor per row of
spec/opcode_table.json (30_encoding.md R86), with the register fields that row uses (R81). -/

namespace Sys2Proof

/-- The number of an operand register, V0..V15 (10_state.md R21, 30_encoding.md R81). -/
abbrev Reg := Fin 16

/-- A decoded command (30_encoding.md R86, R87). Operands stand in the order of the assembler syntax
(R91): `d` destination, `e` second destination, `a` and `b` sources, `m` modulus or reduction
polynomial; a last `e` is the n' source register of REDC and MONTPRO. The scalar operand is not part of
the command word: it is the ARG value captured at acceptance (R85). -/
inductive Instr where
  /-- MOV (R100): x[D] <- x[A]. -/
  | mov (d a : Reg)
  /-- CLR (R101): x[D] <- 0. -/
  | clr (d : Reg)
  /-- GETBIT (R102): RES <- bit arg of x[A]. -/
  | getbit (a : Reg)
  /-- SETBIT (R103): set bit arg of x[D]. -/
  | setbit (d : Reg)
  /-- CLRBIT (R104): clear bit arg of x[D]. -/
  | clrbit (d : Reg)
  /-- ULEN (R105): RES <- ulen(x[A]). -/
  | ulen (a : Reg)
  /-- MSB (R106): RES <- msb(x[A]). -/
  | msb (a : Reg)
  /-- SHL (R107): x[D] <- x[A] shifted left by arg. -/
  | shl (d a : Reg)
  /-- SHR (R108): x[D] <- x[A] shifted right by arg. -/
  | shr (d a : Reg)
  /-- SHL1 (R109): x[D] <- x[A] shifted left by one bit. -/
  | shl1 (d a : Reg)
  /-- SHR1 (R110): x[D] <- x[A] shifted right by one bit. -/
  | shr1 (d a : Reg)
  /-- SHLW (R111): x[D] <- x[A] shifted left by one word. -/
  | shlw (d a : Reg)
  /-- SHRW (R112): x[D] <- x[A] shifted right by one word. -/
  | shrw (d a : Reg)
  /-- CMP (R113): RES <- three-way compare of x[A] and x[B]. -/
  | cmp (a b : Reg)
  /-- TSTZ (R114): RES <- (x[A] = 0). -/
  | tstz (a : Reg)
  /-- TSTONE (R115): RES <- (x[A] = 1). -/
  | tstone (a : Reg)
  /-- TSTODD (R116): RES <- x[A][0]. -/
  | tstodd (a : Reg)
  /-- ADD (R130): x[D], C <- x[A] + x[B]. -/
  | add (d a b : Reg)
  /-- SUB (R131): x[D], C <- x[A] - x[B]. -/
  | sub (d a b : Reg)
  /-- ADDW (R132): x[D], C <- x[A] + arg. -/
  | addw (d a : Reg)
  /-- SUBW (R133): x[D], C <- x[A] - arg. -/
  | subw (d a : Reg)
  /-- MUL (R140): x[D] <- x[A] * x[B], truncated. -/
  | mul (d a b : Reg)
  /-- SQR (R141): x[D] <- x[A] squared. -/
  | sqr (d a : Reg)
  /-- DIV (R150): x[D], x[E] <- quotient, remainder (classic). -/
  | div (d e a b : Reg)
  /-- DIV.HAC (R150): x[D], x[E] <- quotient, remainder (HAC 14.20). -/
  | divHac (d e a b : Reg)
  /-- ADDMOD (R162): x[D] <- (x[A] + x[B]) mod x[M]. -/
  | addmod (d a b m : Reg)
  /-- SUBMOD (R163): x[D] <- (x[A] - x[B]) mod x[M]. -/
  | submod (d a b m : Reg)
  /-- MOD (R164): x[D] <- x[A] mod x[M] (classic). -/
  | mod (d a m : Reg)
  /-- MOD.HAC (R164): x[D] <- x[A] mod x[M] (HAC 14.20). -/
  | modHac (d a m : Reg)
  /-- MULMOD (R165): x[D] <- x[A] * x[B] mod x[M] (classic). -/
  | mulmod (d a b m : Reg)
  /-- MULMOD.MW (R165): the same by the Montgomery word-wise product. -/
  | mulmodMw (d a b m : Reg)
  /-- MULMOD.MB (R165): the same by the Montgomery bitwise product. -/
  | mulmodMb (d a b m : Reg)
  /-- MULMOD.MR (R165): the same by the Montgomery recompute product. -/
  | mulmodMr (d a b m : Reg)
  /-- MPRIME (R171): x[D] <- n'_w of x[M]. -/
  | mprime (d m : Reg)
  /-- MPRIME.R (R171): x[D] <- n'_R of x[M]. -/
  | mprimeR (d m : Reg)
  /-- MRCONST (R172): x[D] <- R mod x[M]. -/
  | mrconst (d m : Reg)
  /-- MRCONST.R2 (R172): x[D] <- R^2 mod x[M]. -/
  | mrconstR2 (d m : Reg)
  /-- REDC (R173): x[D] <- x[A] * R^-1 mod x[M], n' in x[E]. -/
  | redc (d a m e : Reg)
  /-- MONTPRO (R174): x[D] <- MontPro(x[A], x[B], x[M]), n'_R in x[E]. -/
  | montpro (d a b m e : Reg)
  /-- MONTPRO.B (R174): the same, bitwise; the E operand is never read. -/
  | montproB (d a b m e : Reg)
  /-- MONTPRO.RC (R174): the same, recompute, n'_w in the low word of x[E]. -/
  | montproRc (d a b m e : Reg)
  /-- EXP (R190): x[D] <- x[A]^x[B] mod x[M] (binary). -/
  | exp (d a b m : Reg)
  /-- EXP.K4 (R190): the same, 4-bit k-ary. -/
  | expK4 (d a b m : Reg)
  /-- EXP.MONT (R190): the same, Montgomery. -/
  | expMont (d a b m : Reg)
  /-- GCD (R200): x[D] <- gcd(x[A], x[B]). -/
  | gcd (d a b : Reg)
  /-- BXGCD (R201): x[D] <- gcd, x[E] <- an unspecified value. -/
  | bxgcd (d e a b : Reg)
  /-- EEA (R202): x[D] <- gcd, x[E] <- coefficient of x[A]. -/
  | eea (d e a b : Reg)
  /-- INV (R203): x[D] <- inverse of x[A] modulo x[M]. -/
  | inv (d a m : Reg)
  /-- GFADD (R220): x[D] <- x[A] xor x[B]. -/
  | gfadd (d a b : Reg)
  /-- GFMUL (R221): x[D] <- carry-less product, truncated. -/
  | gfmul (d a b : Reg)
  /-- GFDIV (R222): x[D], x[E] <- polynomial quotient, remainder. -/
  | gfdiv (d e a b : Reg)
  /-- GFMOD (R223): x[D] <- x[A] mod the polynomial x[M]. -/
  | gfmod (d a m : Reg)
  /-- GFMULMOD (R224): x[D] <- product mod the polynomial x[M]. -/
  | gfmulmod (d a b m : Reg)
  /-- GFINV (R225): x[D] <- polynomial inverse of x[A] modulo x[M]. -/
  | gfinv (d a m : Reg)
deriving DecidableEq, Repr

end Sys2Proof
end

