-- ==== Sys2Proof/WellFormed.lean ====
section
/-! DEFINITION. The checks the spec puts on what is given to the machine from outside: the build
parameters, a host access, and the numbers an assembler turns into fields.

An `Instr` needs no check of its own: its fields are register numbers of type `Fin 16`, every value of
which the encoding admits (30_encoding.md R81), and commands the spec rejects by their operands (two
equal destinations, for instance) are legal commands that complete with an error. So "for every
well-formed instruction" reads "for every instruction" in the statements. -/

namespace Sys2Proof

/-- K is in 1..65535; any other K is refused (00_scope.md R7, 93_implementation_defined.md U1). -/
def validCapacity (k : Nat) : Bool := decide (1 ≤ k ∧ k ≤ 65535)

/-- ENGINE_BASE is a multiple of 2^24 (20_memory.md R50, 93_implementation_defined.md U2). -/
def validBase (base : Nat) : Bool := decide (base % Config.windowBytes = 0)

/-- A host access is admitted when it is 4 bytes wide at an offset that is a multiple of 4; any other is
refused (20_memory.md R56, 93_implementation_defined.md U8). -/
def admittedAccess (width off : Nat) : Bool := decide (width = 4 ∧ off % 4 = 0)

/-- `v0`..`v15` name V0..V15; there is no other register name (30_encoding.md R95). -/
def validRegisterNumber (r : Nat) : Bool := decide (r < Config.nreg)

/-- `#imm` is in [0, 2^32) (30_encoding.md R93). -/
def validImmediate (imm : Nat) : Bool := decide (imm < 2 ^ 32)

end Sys2Proof
end

