-- ==== Sys2Proof/Decode.lean ====
section
/-! DEFINITION. The decoder of command words and, after it, the encoder, both from the format of
30_encoding.md R80 and the opcode map of R86. -/

namespace Sys2Proof

/-- Why a command word is illegal (30_encoding.md R88). Each case ends the command with IllegalCommand
(60_exceptions.md R240, code 5); the names only say which rule the word breaks. -/
inductive DecodeError where
  /-- Bit 31 is 1 (R83). -/
  | reservedBitSet
  /-- The OPC value is not in the map of R86 (R82). -/
  | undefinedOpcode
  /-- The VAR value is not listed for the OPC (R84). -/
  | undefinedVariant
deriving DecidableEq, Repr

/-- `v[lo+len-1:lo]`, that is floor(v / 2^lo) mod 2^len (00_scope.md R10). -/
def bits (v lo len : Nat) : Nat := v / 2 ^ lo % 2 ^ len

/-- The 4-bit register number at bits lo+3..lo of a command word (30_encoding.md R80, R81). -/
def regField (w : Word) (lo : Nat) : Reg := Fin.ofNat 16 (bits w.toNat lo 4)

/-- OPC, bits 7:0 (R80). -/
def fieldOpc (w : Word) : Nat := bits w.toNat 0 8
/-- D, bits 11:8 (R80). -/
def fieldD (w : Word) : Reg := regField w 8
/-- A, bits 15:12 (R80). -/
def fieldA (w : Word) : Reg := regField w 12
/-- B, bits 19:16 (R80). -/
def fieldB (w : Word) : Reg := regField w 16
/-- M, bits 23:20 (R80). -/
def fieldM (w : Word) : Reg := regField w 20
/-- E, bits 27:24 (R80). -/
def fieldE (w : Word) : Reg := regField w 24
/-- VAR, bits 30:28 (R80, R84). -/
def fieldVar (w : Word) : Nat := bits w.toNat 28 3
/-- RSV, bit 31 (R80, R83). -/
def fieldRsv (w : Word) : Nat := bits w.toNat 31 1

/-- The OPC values of the opcode map (30_encoding.md R86). -/
def opcodeDefined (opc : Nat) : Bool :=
  decide ((0x01 ≤ opc ∧ opc ≤ 0x11) ∨ (0x20 ≤ opc ∧ opc ≤ 0x23) ∨ opc = 0x28 ∨ opc = 0x29 ∨ opc = 0x30 ∨
    (0x38 ≤ opc ∧ opc ≤ 0x3B) ∨ (0x40 ≤ opc ∧ opc ≤ 0x43) ∨ opc = 0x48 ∨ (0x50 ≤ opc ∧ opc ≤ 0x53) ∨
    (0x60 ≤ opc ∧ opc ≤ 0x65))

/-- The row of the opcode map that (OPC, VAR) selects, with its register fields (30_encoding.md R86). -/
def decodeRow (opc var : Nat) (d a b m e : Reg) : Except DecodeError Instr :=
  match opc, var with
  | 0x01, 0 => .ok (.mov d a)
  | 0x02, 0 => .ok (.clr d)
  | 0x03, 0 => .ok (.getbit a)
  | 0x04, 0 => .ok (.setbit d)
  | 0x05, 0 => .ok (.clrbit d)
  | 0x06, 0 => .ok (.ulen a)
  | 0x07, 0 => .ok (.msb a)
  | 0x08, 0 => .ok (.shl d a)
  | 0x09, 0 => .ok (.shr d a)
  | 0x0A, 0 => .ok (.shl1 d a)
  | 0x0B, 0 => .ok (.shr1 d a)
  | 0x0C, 0 => .ok (.shlw d a)
  | 0x0D, 0 => .ok (.shrw d a)
  | 0x0E, 0 => .ok (.cmp a b)
  | 0x0F, 0 => .ok (.tstz a)
  | 0x10, 0 => .ok (.tstone a)
  | 0x11, 0 => .ok (.tstodd a)
  | 0x20, 0 => .ok (.add d a b)
  | 0x21, 0 => .ok (.sub d a b)
  | 0x22, 0 => .ok (.addw d a)
  | 0x23, 0 => .ok (.subw d a)
  | 0x28, 0 => .ok (.mul d a b)
  | 0x29, 0 => .ok (.sqr d a)
  | 0x30, 0 => .ok (.div d e a b)
  | 0x30, 1 => .ok (.divHac d e a b)
  | 0x38, 0 => .ok (.addmod d a b m)
  | 0x39, 0 => .ok (.submod d a b m)
  | 0x3A, 0 => .ok (.mod d a m)
  | 0x3A, 1 => .ok (.modHac d a m)
  | 0x3B, 0 => .ok (.mulmod d a b m)
  | 0x3B, 1 => .ok (.mulmodMw d a b m)
  | 0x3B, 2 => .ok (.mulmodMb d a b m)
  | 0x3B, 3 => .ok (.mulmodMr d a b m)
  | 0x40, 0 => .ok (.mprime d m)
  | 0x40, 1 => .ok (.mprimeR d m)
  | 0x41, 0 => .ok (.mrconst d m)
  | 0x41, 1 => .ok (.mrconstR2 d m)
  | 0x42, 0 => .ok (.redc d a m e)
  | 0x43, 0 => .ok (.montpro d a b m e)
  | 0x43, 1 => .ok (.montproB d a b m e)
  | 0x43, 2 => .ok (.montproRc d a b m e)
  | 0x48, 0 => .ok (.exp d a b m)
  | 0x48, 1 => .ok (.expK4 d a b m)
  | 0x48, 2 => .ok (.expMont d a b m)
  | 0x50, 0 => .ok (.gcd d a b)
  | 0x51, 0 => .ok (.bxgcd d e a b)
  | 0x52, 0 => .ok (.eea d e a b)
  | 0x53, 0 => .ok (.inv d a m)
  | 0x60, 0 => .ok (.gfadd d a b)
  | 0x61, 0 => .ok (.gfmul d a b)
  | 0x62, 0 => .ok (.gfdiv d e a b)
  | 0x63, 0 => .ok (.gfmod d a m)
  | 0x64, 0 => .ok (.gfmulmod d a b m)
  | 0x65, 0 => .ok (.gfinv d a m)
  | _, _ => .error (if opcodeDefined opc then .undefinedVariant else .undefinedOpcode)

/-- Decode of a command word, the three checks in the order of 30_encoding.md R87. Register fields the
row does not use are dropped (R81). -/
def decode (w : Word) : Except DecodeError Instr :=
  if fieldRsv w = 1 then .error .reservedBitSet
  else decodeRow (fieldOpc w) (fieldVar w) (fieldD w) (fieldA w) (fieldB w) (fieldM w) (fieldE w)

/-- The 32-bit value of four byte lanes, lane b carrying bits 8b+7..8b (20_memory.md R55). -/
def wordOfLanes (b0 b1 b2 b3 : Byte) : Word :=
  BitVec.ofNat 32 (b0.toNat + 2 ^ 8 * b1.toNat + 2 ^ 16 * b2.toNat + 2 ^ 24 * b3.toNat)

/-- Byte lane b of a 32-bit access: its bits 8b+7..8b (20_memory.md R55). -/
def lane (w : Word) (b : Nat) : Byte := BitVec.ofNat 8 (bits w.toNat (8 * b) 8)

/-- The instruction the decoder reads from an instruction whose bits are `w`, numbered as
spec/opcode_table.json numbers them; the engine has one word order and one command length
(30_encoding.md R90), and every bit above `nbits` is 0. -/
def decodeTableWord (nbits w : Nat) : Option Instr :=
  match decode (BitVec.ofNat 32 (w % 2 ^ nbits)) with
  | .ok i => some i
  | .error _ => none

/-- The register fields of a command word, an unused field being 0. -/
structure Fields where
  /-- D, bits 11:8. -/
  d : Reg := 0
  /-- A, bits 15:12. -/
  a : Reg := 0
  /-- B, bits 19:16. -/
  b : Reg := 0
  /-- M, bits 23:20. -/
  m : Reg := 0
  /-- E, bits 27:24. -/
  e : Reg := 0
deriving DecidableEq, Repr

/-- OPC and VAR of an instruction's row (30_encoding.md R86). -/
def opcVar (i : Instr) : Nat × Nat :=
  match i with
  | .mov _ _ => (0x01, 0)
  | .clr _ => (0x02, 0)
  | .getbit _ => (0x03, 0)
  | .setbit _ => (0x04, 0)
  | .clrbit _ => (0x05, 0)
  | .ulen _ => (0x06, 0)
  | .msb _ => (0x07, 0)
  | .shl _ _ => (0x08, 0)
  | .shr _ _ => (0x09, 0)
  | .shl1 _ _ => (0x0A, 0)
  | .shr1 _ _ => (0x0B, 0)
  | .shlw _ _ => (0x0C, 0)
  | .shrw _ _ => (0x0D, 0)
  | .cmp _ _ => (0x0E, 0)
  | .tstz _ => (0x0F, 0)
  | .tstone _ => (0x10, 0)
  | .tstodd _ => (0x11, 0)
  | .add _ _ _ => (0x20, 0)
  | .sub _ _ _ => (0x21, 0)
  | .addw _ _ => (0x22, 0)
  | .subw _ _ => (0x23, 0)
  | .mul _ _ _ => (0x28, 0)
  | .sqr _ _ => (0x29, 0)
  | .div _ _ _ _ => (0x30, 0)
  | .divHac _ _ _ _ => (0x30, 1)
  | .addmod _ _ _ _ => (0x38, 0)
  | .submod _ _ _ _ => (0x39, 0)
  | .mod _ _ _ => (0x3A, 0)
  | .modHac _ _ _ => (0x3A, 1)
  | .mulmod _ _ _ _ => (0x3B, 0)
  | .mulmodMw _ _ _ _ => (0x3B, 1)
  | .mulmodMb _ _ _ _ => (0x3B, 2)
  | .mulmodMr _ _ _ _ => (0x3B, 3)
  | .mprime _ _ => (0x40, 0)
  | .mprimeR _ _ => (0x40, 1)
  | .mrconst _ _ => (0x41, 0)
  | .mrconstR2 _ _ => (0x41, 1)
  | .redc _ _ _ _ => (0x42, 0)
  | .montpro _ _ _ _ _ => (0x43, 0)
  | .montproB _ _ _ _ _ => (0x43, 1)
  | .montproRc _ _ _ _ _ => (0x43, 2)
  | .exp _ _ _ _ => (0x48, 0)
  | .expK4 _ _ _ _ => (0x48, 1)
  | .expMont _ _ _ _ => (0x48, 2)
  | .gcd _ _ _ => (0x50, 0)
  | .bxgcd _ _ _ _ => (0x51, 0)
  | .eea _ _ _ _ => (0x52, 0)
  | .inv _ _ _ => (0x53, 0)
  | .gfadd _ _ _ => (0x60, 0)
  | .gfmul _ _ _ => (0x61, 0)
  | .gfdiv _ _ _ _ => (0x62, 0)
  | .gfmod _ _ _ => (0x63, 0)
  | .gfmulmod _ _ _ _ => (0x64, 0)
  | .gfinv _ _ _ => (0x65, 0)

/-- The register fields of an instruction (30_encoding.md R86). -/
def fieldsOf (i : Instr) : Fields :=
  match i with
  | .mov d a => { d := d, a := a }
  | .clr d => { d := d }
  | .getbit a => { a := a }
  | .setbit d => { d := d }
  | .clrbit d => { d := d }
  | .ulen a => { a := a }
  | .msb a => { a := a }
  | .shl d a => { d := d, a := a }
  | .shr d a => { d := d, a := a }
  | .shl1 d a => { d := d, a := a }
  | .shr1 d a => { d := d, a := a }
  | .shlw d a => { d := d, a := a }
  | .shrw d a => { d := d, a := a }
  | .cmp a b => { a := a, b := b }
  | .tstz a => { a := a }
  | .tstone a => { a := a }
  | .tstodd a => { a := a }
  | .add d a b => { d := d, a := a, b := b }
  | .sub d a b => { d := d, a := a, b := b }
  | .addw d a => { d := d, a := a }
  | .subw d a => { d := d, a := a }
  | .mul d a b => { d := d, a := a, b := b }
  | .sqr d a => { d := d, a := a }
  | .div d e a b => { d := d, e := e, a := a, b := b }
  | .divHac d e a b => { d := d, e := e, a := a, b := b }
  | .addmod d a b m => { d := d, a := a, b := b, m := m }
  | .submod d a b m => { d := d, a := a, b := b, m := m }
  | .mod d a m => { d := d, a := a, m := m }
  | .modHac d a m => { d := d, a := a, m := m }
  | .mulmod d a b m => { d := d, a := a, b := b, m := m }
  | .mulmodMw d a b m => { d := d, a := a, b := b, m := m }
  | .mulmodMb d a b m => { d := d, a := a, b := b, m := m }
  | .mulmodMr d a b m => { d := d, a := a, b := b, m := m }
  | .mprime d m => { d := d, m := m }
  | .mprimeR d m => { d := d, m := m }
  | .mrconst d m => { d := d, m := m }
  | .mrconstR2 d m => { d := d, m := m }
  | .redc d a m e => { d := d, a := a, m := m, e := e }
  | .montpro d a b m e => { d := d, a := a, b := b, m := m, e := e }
  | .montproB d a b m e => { d := d, a := a, b := b, m := m, e := e }
  | .montproRc d a b m e => { d := d, a := a, b := b, m := m, e := e }
  | .exp d a b m => { d := d, a := a, b := b, m := m }
  | .expK4 d a b m => { d := d, a := a, b := b, m := m }
  | .expMont d a b m => { d := d, a := a, b := b, m := m }
  | .gcd d a b => { d := d, a := a, b := b }
  | .bxgcd d e a b => { d := d, e := e, a := a, b := b }
  | .eea d e a b => { d := d, e := e, a := a, b := b }
  | .inv d a m => { d := d, a := a, m := m }
  | .gfadd d a b => { d := d, a := a, b := b }
  | .gfmul d a b => { d := d, a := a, b := b }
  | .gfdiv d e a b => { d := d, e := e, a := a, b := b }
  | .gfmod d a m => { d := d, a := a, m := m }
  | .gfmulmod d a b m => { d := d, a := a, b := b, m := m }
  | .gfinv d a m => { d := d, a := a, m := m }

/-- `match = OPC | (VAR << 28)` of an instruction's row (30_encoding.md R86). -/
def matchNat (i : Instr) : Nat := (opcVar i).1 + 2 ^ 28 * (opcVar i).2

/-- The contribution of the register fields to a command word (30_encoding.md R80). -/
def fieldsNat (f : Fields) : Nat :=
  2 ^ 8 * f.d.val + 2 ^ 12 * f.a.val + 2 ^ 16 * f.b.val + 2 ^ 20 * f.m.val + 2 ^ 24 * f.e.val

/-- The bits of a command word its row reads: OPC, VAR, RSV and the fields the row uses, each `x` of the
table's encoding pattern being 0 (30_encoding.md R81, R86). -/
def usedMask (i : Instr) : Word :=
  match i with
  | .mov _ _ => 0xF000FFFF
  | .clr _ => 0xF0000FFF
  | .getbit _ => 0xF000F0FF
  | .setbit _ => 0xF0000FFF
  | .clrbit _ => 0xF0000FFF
  | .ulen _ => 0xF000F0FF
  | .msb _ => 0xF000F0FF
  | .shl _ _ => 0xF000FFFF
  | .shr _ _ => 0xF000FFFF
  | .shl1 _ _ => 0xF000FFFF
  | .shr1 _ _ => 0xF000FFFF
  | .shlw _ _ => 0xF000FFFF
  | .shrw _ _ => 0xF000FFFF
  | .cmp _ _ => 0xF00FF0FF
  | .tstz _ => 0xF000F0FF
  | .tstone _ => 0xF000F0FF
  | .tstodd _ => 0xF000F0FF
  | .add _ _ _ => 0xF00FFFFF
  | .sub _ _ _ => 0xF00FFFFF
  | .addw _ _ => 0xF000FFFF
  | .subw _ _ => 0xF000FFFF
  | .mul _ _ _ => 0xF00FFFFF
  | .sqr _ _ => 0xF000FFFF
  | .div _ _ _ _ => 0xFF0FFFFF
  | .divHac _ _ _ _ => 0xFF0FFFFF
  | .addmod _ _ _ _ => 0xF0FFFFFF
  | .submod _ _ _ _ => 0xF0FFFFFF
  | .mod _ _ _ => 0xF0F0FFFF
  | .modHac _ _ _ => 0xF0F0FFFF
  | .mulmod _ _ _ _ => 0xF0FFFFFF
  | .mulmodMw _ _ _ _ => 0xF0FFFFFF
  | .mulmodMb _ _ _ _ => 0xF0FFFFFF
  | .mulmodMr _ _ _ _ => 0xF0FFFFFF
  | .mprime _ _ => 0xF0F00FFF
  | .mprimeR _ _ => 0xF0F00FFF
  | .mrconst _ _ => 0xF0F00FFF
  | .mrconstR2 _ _ => 0xF0F00FFF
  | .redc _ _ _ _ => 0xFFF0FFFF
  | .montpro _ _ _ _ _ => 0xFFFFFFFF
  | .montproB _ _ _ _ _ => 0xFFFFFFFF
  | .montproRc _ _ _ _ _ => 0xFFFFFFFF
  | .exp _ _ _ _ => 0xF0FFFFFF
  | .expK4 _ _ _ _ => 0xF0FFFFFF
  | .expMont _ _ _ _ => 0xF0FFFFFF
  | .gcd _ _ _ => 0xF00FFFFF
  | .bxgcd _ _ _ _ => 0xFF0FFFFF
  | .eea _ _ _ _ => 0xFF0FFFFF
  | .inv _ _ _ => 0xF0F0FFFF
  | .gfadd _ _ _ => 0xF00FFFFF
  | .gfmul _ _ _ => 0xF00FFFFF
  | .gfdiv _ _ _ _ => 0xFF0FFFFF
  | .gfmod _ _ _ => 0xF0F0FFFF
  | .gfmulmod _ _ _ _ => 0xF0FFFFFF
  | .gfinv _ _ _ => 0xF0F0FFFF

/-- The command word of an instruction: the row's match word with the register fields put in, unused
fields and RSV being 0 (30_encoding.md R80, R81, R83). -/
def encode (i : Instr) : Word := BitVec.ofNat 32 (matchNat i + fieldsNat (fieldsOf i))

end Sys2Proof
end

