-- ==== Sys2Proof/Machine/State.lean ====
section
/-! DEFINITION. The architectural state of the engine (10_state.md R20), what reaches it from outside,
the reasons a step can stop, and the state after reset. -/

namespace Sys2Proof.Machine

/-- The error codes of STATUS.ERR (60_exceptions.md R240). Codes 8–15 are reserved and never written, so
they have no constructor. -/
inductive ErrCode where
  /-- 0: the command completed and wrote its results. -/
  | ok
  /-- 1: operand or requested output exceeds the configured capacity. -/
  | invalidLength
  /-- 2: a zero divisor, modulus or reduction polynomial. -/
  | divisionByZero
  /-- 3: an inverse was requested of a non-unit, or an even modulus needs a Montgomery constant. -/
  | notInvertible
  /-- 4: reserved for test builds, never written by the engine (44_division.md R152). -/
  | invariantViolation
  /-- 5: a reserved OPC, an undefined VAR, or RSV = 1 (30_encoding.md R88). -/
  | illegalCommand
  /-- 6: the two destination fields of a two-output command are equal. -/
  | aliasViolation
  /-- 7: a modular operand not below its modulus, or a REDC input T ≥ n·R. -/
  | operandOutOfRange
deriving DecidableEq, Repr

/-- The content of the pending-command latch PEND: the accepted command word and the value of ARG at
acceptance (10_state.md R35). -/
structure Pending where
  /-- The accepted command word w. -/
  word : Word
  /-- The captured scalar operand. -/
  arg : Word
deriving DecidableEq, Repr

/-- One host access, at an absolute address of the host's address space, `width` bytes wide
(20_memory.md R50, R56). -/
inductive Access where
  /-- `MemRead`. -/
  | read (width addr : Nat)
  /-- `MemWrite` of a value. -/
  | write (width addr : Nat) (value : Word)
deriving DecidableEq, Repr

/-- What moves next (00_scope.md R5): the host, the engine, or the supply. The order in which the two
agents move is open (LATENCY, 70_reset_and_hazards.md R290), so a list of turns in the state fixes
it: every latency, and every host program, is some list (assumption 4). -/
inductive Turn where
  /-- The host's next access takes effect. -/
  | host (a : Access)
  /-- The engine moves: it executes the pending command, or stays idle. -/
  | engine
  /-- Power-on reset (70_reset_and_hazards.md R270). -/
  | powerOn
deriving DecidableEq, Repr

/-- The machine's state. The first group is the build (00_scope.md R8), the second the architectural
state of 10_state.md R20 — STATUS (R25) held by its five fields, its bits 31:8 reading 0; ID (R29) and
CTRL (R28) hard-wired, computed where they are read (assumption 9) — and the third the model's own. -/
structure State where
  /-- K, the words of the largest modulus (00_scope.md R7). No step changes it. -/
  kWords : Nat
  /-- ENGINE_BASE (20_memory.md R50). No step changes it. -/
  base : Nat
  /-- V0..V15, each the natural number it holds (00_scope.md R9, 10_state.md R21; assumption 14). -/
  x : Vector Nat 16
  /-- CMD, the last accepted command word (10_state.md R27). -/
  cmd : Word
  /-- ARG (10_state.md R23). -/
  arg : Word
  /-- RES (10_state.md R24). -/
  res : Word
  /-- STATUS.BUSY, bit 0 (10_state.md R34). -/
  busy : Bool
  /-- STATUS.C, bit 1 (10_state.md R30). -/
  c : Bool
  /-- STATUS.ANYERR, bit 2 (10_state.md R32). -/
  anyErr : Bool
  /-- STATUS.OVR, bit 3 (10_state.md R33). -/
  ovr : Bool
  /-- STATUS.ERR, bits 7:4 (10_state.md R31). -/
  err : ErrCode
  /-- PEND (10_state.md R35). -/
  pend : Option Pending
  /-- MODEL: the turns still to come; where it is empty the engine moves (assumption 4). -/
  turns : List Turn
  /-- MODEL: the value the last host read returned (assumption 5). -/
  readData : Word
  /-- MODEL: how many free values have been used (assumptions 2 and 3). -/
  freeCount : Nat
deriving DecidableEq, Repr

/-- Where the machine stops. -/
inductive Fault where
  /-- A host access at an address outside the engine's window, which is its only address space
  (20_memory.md R50). Raised by a host turn only, never by a command. Safe: the model stops where the
  access would not concern this engine (assumption 6). -/
  | outsideWindow
deriving DecidableEq, Repr

/-- What the model rejects. No command is ever refused: each completes (60_exceptions.md R246). -/
inductive Refusal where
  /-- An instruction without a meaning in this model. Raised by no arm of `exec`. Safe. -/
  | notModelled (mnemonic : String)
  /-- A host access that is not an aligned 32-bit access "has no defined effect: a model refuses a host
  program that issues one" (20_memory.md R56, 93_implementation_defined.md U8). Raised by a host turn.
  Safe. -/
  | accessNotAdmitted
  /-- K outside 1..65535 "is refuse" (93_implementation_defined.md U1), or ENGINE_BASE not a multiple
  of 2^24 (20_memory.md R50). Raised by `step` before anything else. Safe. -/
  | invalidBuild
deriving DecidableEq, Repr

/-- The three outcomes of a step of this machine. -/
abbrev Result := Host.Outcome State Fault Refusal

/-- Every element of the architectural state at its reset value (10_state.md R38), for a given build and
with the model's own fields as given. Power-on and soft reset agree (70_reset_and_hazards.md R270, R271). -/
def State.resetWith (k base : Nat) (turns : List Turn) (readData : Word) (freeCount : Nat) : State where
  kWords := k
  base := base
  x := Vector.replicate 16 0
  cmd := 0
  arg := 0
  res := 0
  busy := false
  c := false
  anyErr := false
  ovr := false
  err := .ok
  pend := none
  turns := turns
  readData := readData
  freeCount := freeCount

/-- The machine right after reset, in the spec's test configuration K = 4 with the host yet to move
(10_state.md R38; assumptions 1, 4 and 5). -/
def State.reset : State := State.resetWith Config.resetK Config.resetBase [] 0 0

end Sys2Proof.Machine
end

