-- ==== Sys2Proof/Machine/Flags.lean ====
section
/-! DEFINITION. The carry and borrow of the adder (10_state.md R30) and the STATUS word (R25). -/

namespace Sys2Proof.Machine

/-- The carry: the exact sum does not fit the register (10_state.md R30, 42_addsub.md R130). -/
def carryOut (k a b : Nat) : Bool := decide (registerLimit k ≤ a + b)

/-- The borrow: the subtrahend exceeds the minuend (10_state.md R30, 42_addsub.md R131). -/
def borrowOut (a b : Nat) : Bool := decide (a < b)

/-- (a − b) mod 2^(32N), the non-negative residue, for any a and b (42_addsub.md R131). -/
def subN (k a b : Nat) : Nat := (((a : Int) - (b : Int)) % (registerLimit k : Int)).toNat

/-- The number of an error code (60_exceptions.md R240). -/
def errNumber (e : ErrCode) : Nat :=
  match e with
  | .ok => 0
  | .invalidLength => 1
  | .divisionByZero => 2
  | .notInvertible => 3
  | .invariantViolation => 4
  | .illegalCommand => 5
  | .aliasViolation => 6
  | .operandOutOfRange => 7

/-- STATUS as the host reads it: BUSY, C, ANYERR, OVR in bits 0..3, ERR in bits 7:4, bits 31:8 zero
(10_state.md R25). -/
def statusWord (s : State) : Word :=
  BitVec.ofNat 32 (s.busy.toNat + 2 * s.c.toNat + 4 * s.anyErr.toNat + 8 * s.ovr.toNat + 16 * errNumber s.err)

/-- ID: K in bits 15:0, 16 in bits 23:16, the revision in bits 31:24 (10_state.md R29). -/
def idWord (k : Nat) : Word :=
  BitVec.ofNat 32 (k + 2 ^ 16 * Config.nreg + 2 ^ 24 * Config.revision)

end Sys2Proof.Machine
end

