-- ==== Sys2Proof/Machine/Ops.lean ====
section
/-! DEFINITION. The named operations every command and every host access is written with: reading and
writing registers, accepting and completing a command, and reset. -/

namespace Sys2Proof.Machine

/-! ### Registers -/

/-- `x[i]`, read operand register Vi (00_scope.md R12). -/
def State.reg (s : State) (i : Reg) : Nat := s.x[i]

/-- `x[i] <- v`, write operand register Vi whole: all N words are those of v (00_scope.md R12,
10_state.md R22). -/
def State.setReg (s : State) (i : Reg) (v : Nat) : State := { s with x := s.x.set i v }

/-- `RES <- w` (10_state.md R24). -/
def State.setRes (s : State) (w : Word) : State := { s with res := w }

/-- `C <- b` (10_state.md R30). -/
def State.setC (s : State) (b : Bool) : State := { s with c := b }

/-- The scalar operand `arg` of the command being executed: the ARG value captured at its acceptance
(10_state.md R35). With no command pending, which no run of `step` executes in, ARG as it stands, the
value an acceptance would capture (assumption 7). -/
def State.scalar (s : State) : Nat :=
  match s.pend with
  | some p => p.arg.toNat
  | none => s.arg.toNat

/-- The next unspecified value in [0, 2^(32N)) (46_montgomery.md R170, 48_gcd_inversion.md R201). -/
def State.freeRegValue (s : State) : Nat := wrapN s.kWords (Config.freeValue s.freeCount)

/-- The state in which one more free value has been used. -/
def State.useFree (s : State) : State := { s with freeCount := s.freeCount + 1 }

/-! ### Acceptance and completion of a command -/

/-- Acceptance of a CMD write of w: PEND <- (w, ARG), CMD <- w, BUSY <- 1; ERR is not changed
(10_state.md R31, R35). -/
def State.accept (s : State) (w : Word) : State :=
  { s with pend := some { word := w, arg := s.arg }, cmd := w, busy := true }

/-- Completion of a command with a code: STATUS.ERR <- the code; if it is not 0, STATUS.ANYERR <- 1;
PEND <- empty; STATUS.BUSY <- 0 (60_exceptions.md R246). This is all that taking an error does: no saved
pc, no handler, no mode (R247), and no return from it (R248). -/
def State.complete (s : State) (e : ErrCode) : State :=
  { s with err := e, anyErr := s.anyErr || decide (e ≠ .ok), pend := none, busy := false }

/-- `raise Err(e)`: the command ends with the error e, and nothing but STATUS and PEND is written
(60_exceptions.md R243). -/
def raiseErr (e : ErrCode) (s : State) : Result := .next (s.complete e)

/-- The command ends without error in a state that holds its results (60_exceptions.md R246). -/
def succeed (results : State) : Result := .next (results.complete .ok)

/-- Ends a command from its checks: the first failing check raises its error in the state before the
command, otherwise the command succeeds with its results (60_exceptions.md R241, R243). -/
def checked (check : Option ErrCode) (s results : State) : Result :=
  match check with
  | some e => raiseErr e s
  | none => succeed results

/-- One check: the error it raises where its condition holds. -/
def errIf (p : Bool) (e : ErrCode) : Option ErrCode := if p then some e else none

/-- The first error among checks in the order of 60_exceptions.md R241. -/
def firstErr : List (Option ErrCode) → Option ErrCode
  | [] => none
  | some e :: _ => some e
  | none :: rest => firstErr rest

/-- `ModCheck(n, need_odd)` (45_modular.md R160). -/
def modCheck (k n : Nat) (needOdd : Bool) : Option ErrCode :=
  firstErr [errIf (n = 0) .divisionByZero, errIf (k < ulen n) .invalidLength,
    errIf (needOdd && bitOf n 0 = 0) .notInvertible]

/-- `RangeCheck(v, n)` (45_modular.md R161). -/
def rangeCheck (v n : Nat) : Option ErrCode := errIf (n ≤ v) .operandOutOfRange

/-- The two destinations of a two-output command are equal (44_division.md R151). -/
def aliasCheck (d e : Reg) : Option ErrCode := errIf (d = e) .aliasViolation

/-- A zero divisor, modulus or reduction polynomial (60_exceptions.md R240, code 2). -/
def zeroCheck (v : Nat) : Option ErrCode := errIf (v = 0) .divisionByZero

/-- A bit index at or above 32N (41_representation.md R102). -/
def bitIndexCheck (k i : Nat) : Option ErrCode := errIf (registerBits k ≤ i) .invalidLength

/-! ### Reset -/

/-- Reset of the engine, power-on or soft: every element takes its value of 10_state.md R38 and a
pending command is discarded without writing anything (70_reset_and_hazards.md R270, R271). The build,
the turns to come and the model's own record are not elements of the engine and stay (assumption 11). -/
def State.resetEngine (s : State) : State :=
  State.resetWith s.kWords s.base s.turns s.readData s.freeCount

end Sys2Proof.Machine
end

