-- ==== Sys2Proof/Machine/AddSub.lean ====
section
/-! DEFINITION. The commands of 42_addsub.md, the only writers of C (10_state.md R30). -/

namespace Sys2Proof.Machine

/-- ADD: x[D] <- wrapN(x[A] + x[B]), C <- carry (R130). -/
def execAdd (d a b : Reg) (s : State) : Result :=
  succeed ((s.setReg d (wrapN s.kWords (s.reg a + s.reg b))).setC (carryOut s.kWords (s.reg a) (s.reg b)))

/-- SUB: x[D] <- (x[A] − x[B]) mod 2^(32N), C <- borrow (R131). -/
def execSub (d a b : Reg) (s : State) : Result :=
  succeed ((s.setReg d (subN s.kWords (s.reg a) (s.reg b))).setC (borrowOut (s.reg a) (s.reg b)))

/-- ADDW: x[D] <- wrapN(x[A] + arg), C <- carry (R132). -/
def execAddw (d a : Reg) (s : State) : Result :=
  succeed ((s.setReg d (wrapN s.kWords (s.reg a + s.scalar))).setC (carryOut s.kWords (s.reg a) s.scalar))

/-- SUBW: x[D] <- (x[A] − arg) mod 2^(32N), C <- borrow (R133). -/
def execSubw (d a : Reg) (s : State) : Result :=
  succeed ((s.setReg d (subN s.kWords (s.reg a) s.scalar)).setC (borrowOut (s.reg a) s.scalar))

end Sys2Proof.Machine
end

