-- ==== Sys2Proof/Machine/Division.lean ====
section
/-! DEFINITION. The commands of 44_division.md: DIV in its two variants, which give the same quotient and
remainder for every input. -/

namespace Sys2Proof.Machine

/-- x[D], x[E] <- quotient and remainder of x[A] by x[B]; AliasViolation when D = E, DivisionByZero when
x[B] = 0, in this order (R150, R151). -/
def divide (d e a b : Reg) (s : State) : Result :=
  checked (firstErr [aliasCheck d e, zeroCheck (s.reg b)]) s
    ((s.setReg d (s.reg a / s.reg b)).setReg e (s.reg a % s.reg b))

/-- DIV, classic normalized long division (R150). -/
def execDiv (d e a b : Reg) (s : State) : Result := divide d e a b s

/-- DIV.HAC, HAC 14.20 normalized division (R150). -/
def execDivHac (d e a b : Reg) (s : State) : Result := divide d e a b s

end Sys2Proof.Machine
end

