-- ==== Sys2Proof/Machine/Exponentiation.lean ====
section
/-! DEFINITION. The commands of 47_exponentiation.md, whose three variants agree (R191). -/

namespace Sys2Proof.Machine

/-- x[D] <- x[A]^x[B] mod n, with g^0 = 1; Montgomery exponentiation needs an odd modulus (R190). -/
def exponentiate (montgomery : Bool) (d a b m : Reg) (s : State) : Result :=
  checked (firstErr [modCheck s.kWords (s.reg m) montgomery, rangeCheck (s.reg a) (s.reg m)]) s
    (s.setReg d (powMod (s.reg a) (s.reg b) (s.reg m)))

/-- EXP, left-to-right binary (R190). -/
def execExp (d a b m : Reg) (s : State) : Result := exponentiate false d a b m s

/-- EXP.K4, 4-bit k-ary (R190). -/
def execExpK4 (d a b m : Reg) (s : State) : Result := exponentiate false d a b m s

/-- EXP.MONT, Montgomery (R190). -/
def execExpMont (d a b m : Reg) (s : State) : Result := exponentiate true d a b m s

end Sys2Proof.Machine
end

