-- ==== Sys2Proof/Machine/GcdInversion.lean ====
section
/-! DEFINITION. The commands of 48_gcd_inversion.md. -/

namespace Sys2Proof.Machine

/-- GCD: x[D] <- gcd(x[A], x[B]), with gcd(a, 0) = a and gcd(0, 0) = 0 (R200). -/
def execGcd (d a b : Reg) (s : State) : Result := succeed (s.setReg d (Nat.gcd (s.reg a) (s.reg b)))

/-- BXGCD: x[D] <- gcd(x[A], x[B]), x[E] <- an unspecified value in [0, 2^(32N)); AliasViolation when
D = E (R201, assumption 2). -/
def execBxgcd (d e a b : Reg) (s : State) : Result :=
  checked (aliasCheck d e) s
    ((s.setReg d (Nat.gcd (s.reg a) (s.reg b))).setReg e s.freeRegValue).useFree

/-- EEA: x[D] <- gcd(x[A], x[B]), x[E] <- the coefficient s0 mod x[B]; AliasViolation when D = E,
DivisionByZero when x[B] = 0, in this order (R202). -/
def execEea (d e a b : Reg) (s : State) : Result :=
  checked (firstErr [aliasCheck d e, zeroCheck (s.reg b)]) s
    ((s.setReg d (eea (s.reg a) (s.reg b)).1).setReg e (eea (s.reg a) (s.reg b)).2)

/-- INV: x[D] <- inv(x[A] mod n, n); DivisionByZero, InvalidLength, NotInvertible in this order (R203). -/
def execInv (d a m : Reg) (s : State) : Result :=
  checked (firstErr [modCheck s.kWords (s.reg m) false,
      errIf (Nat.gcd (s.reg a) (s.reg m) ≠ 1) .notInvertible]) s
    (s.setReg d (invMod (s.reg a % s.reg m) (s.reg m)))

end Sys2Proof.Machine
end

