-- ==== Sys2Proof/Machine/Poly.lean ====
section
/-! DEFINITION. Binary polynomials on natural numbers: bit i is the coefficient of t^i over GF(2)
(00_scope.md R13). Every recursion is structural. -/

namespace Sys2Proof.Machine

/-- ⊕ over i < len with b[i] = 1 of (a << i). -/
def clmulBits (a b : Nat) : (len : Nat) → Nat
  | 0 => 0
  | len + 1 => clmulBits a b len ^^^ (if b.testBit len then a <<< len else 0)

/-- `clmul(a, b)`, the carry-less product: ⊕ over all i with b[i] = 1 of (a << i) (00_scope.md R13). -/
def clmul (a b : Nat) : Nat := clmulBits a b (msb b)

/-- Align-shift-XOR division of a by b, accumulating the quotient in q; `fuel` is at least msb(a), which
falls at every turn. -/
def pdivLoop (b : Nat) : (fuel : Nat) → (q a : Nat) → Nat × Nat
  | 0, q, a => (q, a)
  | fuel + 1, q, a =>
    if msb a < msb b then (q, a)
    else pdivLoop b fuel (q ^^^ (1 <<< (msb a - msb b))) (a ^^^ (b <<< (msb a - msb b)))

/-- `pdivmod(a, b)` for b ≠ 0: the pair (q, r) with a = clmul(q, b) ⊕ r and msb(r) < msb(b)
(00_scope.md R13). -/
def pdivmod (a b : Nat) : Nat × Nat := pdivLoop b (msb a) 0 a

/-- `pdiv(a, b)` (00_scope.md R13). -/
def pdiv (a b : Nat) : Nat := (pdivmod a b).1

/-- `pmod(a, b)` (00_scope.md R13). -/
def pmod (a b : Nat) : Nat := (pdivmod a b).2

/-- The loop of the extended Euclidean algorithm on polynomials: the value and coefficient pairs
(r0, s0) and (r1, s1); `fuel` exceeds msb(r1), which falls at every turn. -/
def pegcdLoop : (fuel : Nat) → (r0 r1 s0 s1 : Nat) → Nat × Nat
  | 0, r0, _, s0, _ => (r0, s0)
  | fuel + 1, r0, r1, s0, s1 =>
    if r1 = 0 then (r0, s0)
    else pegcdLoop fuel r1 (pmod r0 r1) s1 (s0 ^^^ clmul (pdiv r0 r1) s1)

/-- (pgcd(u, p), the coefficient of u). -/
def pegcd (u p : Nat) : Nat × Nat := pegcdLoop (msb p + 1) u p 1 0

/-- `pgcd(a, b)`: Euclid with pmod, pgcd(a, 0) = a (00_scope.md R13). -/
def pgcd (a b : Nat) : Nat := (pegcd a b).1

/-- For pgcd(u, p) = 1: the unique v with pdeg(v) < pdeg(p) and pmod(clmul(u, v), p) = pmod(1, p)
(49_gf2m.md R225). -/
def pinv (u p : Nat) : Nat := pmod (pegcd u p).2 p

end Sys2Proof.Machine
end

