-- ==== Sys2Proof/Machine/Gf2m.lean ====
section
/-! DEFINITION. The commands of 49_gf2m.md, on registers read as binary polynomials. -/

namespace Sys2Proof.Machine

/-- GFADD: x[D] <- x[A] ⊕ x[B] (R220). -/
def execGfadd (d a b : Reg) (s : State) : Result := succeed (s.setReg d (s.reg a ^^^ s.reg b))

/-- GFMUL: x[D] <- wrapN(clmul(x[A], x[B])) (R221). -/
def execGfmul (d a b : Reg) (s : State) : Result :=
  succeed (s.setReg d (wrapN s.kWords (clmul (s.reg a) (s.reg b))))

/-- GFDIV: x[D], x[E] <- polynomial quotient and remainder; AliasViolation when D = E, DivisionByZero
when x[B] = 0, in this order (R222). -/
def execGfdiv (d e a b : Reg) (s : State) : Result :=
  checked (firstErr [aliasCheck d e, zeroCheck (s.reg b)]) s
    ((s.setReg d (pdiv (s.reg a) (s.reg b))).setReg e (pmod (s.reg a) (s.reg b)))

/-- GFMOD: x[D] <- pmod(x[A], p); DivisionByZero when p = 0 (R223). -/
def execGfmod (d a m : Reg) (s : State) : Result :=
  checked (zeroCheck (s.reg m)) s (s.setReg d (pmod (s.reg a) (s.reg m)))

/-- GFMULMOD: x[D] <- pmod(wrapN(clmul(x[A], x[B])), p); DivisionByZero when p = 0 (R224). -/
def execGfmulmod (d a b m : Reg) (s : State) : Result :=
  checked (zeroCheck (s.reg m)) s
    (s.setReg d (pmod (wrapN s.kWords (clmul (s.reg a) (s.reg b))) (s.reg m)))

/-- GFINV: x[D] <- the inverse of u = pmod(x[A], p) modulo p; DivisionByZero when p = 0, NotInvertible
when pgcd(u, p) ≠ 1, in this order (R225). -/
def execGfinv (d a m : Reg) (s : State) : Result :=
  checked (firstErr [zeroCheck (s.reg m),
      errIf (pgcd (pmod (s.reg a) (s.reg m)) (s.reg m) ≠ 1) .notInvertible]) s
    (s.setReg d (pinv (pmod (s.reg a) (s.reg m)) (s.reg m)))

end Sys2Proof.Machine
end

