-- ==== Sys2Proof/Machine/Modular.lean ====
section
/-! DEFINITION. The commands of 45_modular.md. -/

namespace Sys2Proof.Machine

/-- ADDMOD: x[D] <- (x[A] + x[B]) mod n (R162). -/
def execAddmod (d a b m : Reg) (s : State) : Result :=
  checked (firstErr [modCheck s.kWords (s.reg m) false, rangeCheck (s.reg a) (s.reg m),
      rangeCheck (s.reg b) (s.reg m)]) s
    (s.setReg d ((s.reg a + s.reg b) % s.reg m))

/-- SUBMOD: x[D] <- (x[A] − x[B]) mod n, the non-negative residue (R163). -/
def execSubmod (d a b m : Reg) (s : State) : Result :=
  checked (firstErr [modCheck s.kWords (s.reg m) false, rangeCheck (s.reg a) (s.reg m),
      rangeCheck (s.reg b) (s.reg m)]) s
    (s.setReg d (((s.reg a : Int) - (s.reg b : Int)) % (s.reg m : Int)).toNat)

/-- x[D] <- x[A] mod n; DivisionByZero when n = 0, no capacity or range check (R164). -/
def remainder (d a m : Reg) (s : State) : Result :=
  checked (zeroCheck (s.reg m)) s (s.setReg d (s.reg a % s.reg m))

/-- MOD, classic division (R164). -/
def execMod (d a m : Reg) (s : State) : Result := remainder d a m s

/-- MOD.HAC, HAC 14.20 division (R164). -/
def execModHac (d a m : Reg) (s : State) : Result := remainder d a m s

/-- x[D] <- x[A] · x[B] mod n; the Montgomery variants need an odd modulus (R165). -/
def mulModulo (montgomery : Bool) (d a b m : Reg) (s : State) : Result :=
  checked (firstErr [modCheck s.kWords (s.reg m) montgomery, rangeCheck (s.reg a) (s.reg m),
      rangeCheck (s.reg b) (s.reg m)]) s
    (s.setReg d (s.reg a * s.reg b % s.reg m))

/-- MULMOD, classic (R165). -/
def execMulmod (d a b m : Reg) (s : State) : Result := mulModulo false d a b m s

/-- MULMOD.MW, Montgomery word-wise with precomputed n' (R165). -/
def execMulmodMw (d a b m : Reg) (s : State) : Result := mulModulo true d a b m s

/-- MULMOD.MB, Montgomery bitwise (R165). -/
def execMulmodMb (d a b m : Reg) (s : State) : Result := mulModulo true d a b m s

/-- MULMOD.MR, Montgomery word-wise recompute (R165). -/
def execMulmodMr (d a b m : Reg) (s : State) : Result := mulModulo true d a b m s

end Sys2Proof.Machine
end

