-- ==== Sys2Proof/Machine/Montgomery.lean ====
section
/-! DEFINITION. The commands of 46_montgomery.md. -/

namespace Sys2Proof.Machine

/-- MPRIME: x[D] <- n'_w, from the least-significant word of n (R171). -/
def execMprime (d m : Reg) (s : State) : Result :=
  checked (modCheck s.kWords (s.reg m) true) s (s.setReg d (modulusPrime (s.reg m) (2 ^ 32)))

/-- MPRIME.R: x[D] <- n'_R (R171). -/
def execMprimeR (d m : Reg) (s : State) : Result :=
  checked (modCheck s.kWords (s.reg m) true) s (s.setReg d (modulusPrime (s.reg m) (radix (s.reg m))))

/-- MRCONST: x[D] <- R mod n (R172). -/
def execMrconst (d m : Reg) (s : State) : Result :=
  checked (modCheck s.kWords (s.reg m) false) s (s.setReg d (radix (s.reg m) % s.reg m))

/-- MRCONST.R2: x[D] <- R² mod n (R172). -/
def execMrconstR2 (d m : Reg) (s : State) : Result :=
  checked (modCheck s.kWords (s.reg m) false) s
    (s.setReg d (radix (s.reg m) * radix (s.reg m) % s.reg m))

/-- The results of a command that reads n': x[D] <- v where the predicate its variant needs holds, else
an unspecified value in [0, 2^(32N)); the predicate is not checked as an error (R170, assumption 2). -/
def withPrime (ok : Bool) (d : Reg) (v : Nat) (s : State) : State :=
  if ok then s.setReg d v else (s.setReg d s.freeRegValue).useFree

/-- REDC: x[D] <- T·R⁻¹ mod n for T = x[A] below n·R, n' in x[E] (R173). -/
def execRedc (d a m e : Reg) (s : State) : Result :=
  checked (firstErr [modCheck s.kWords (s.reg m) true,
      errIf (s.reg m * radix (s.reg m) ≤ s.reg a) .operandOutOfRange]) s
    (withPrime (nprimeOkW (s.reg m) (s.reg e)) d (redc (s.reg a) (s.reg m)) s)

/-- x[D] <- MontPro(x[A], x[B], n) where the n' the variant reads is right (R174). -/
def montProduct (ok : Bool) (d a b m : Reg) (s : State) : Result :=
  checked (firstErr [modCheck s.kWords (s.reg m) true, rangeCheck (s.reg a) (s.reg m),
      rangeCheck (s.reg b) (s.reg m)]) s
    (withPrime ok d (montPro (s.reg a) (s.reg b) (s.reg m)) s)

/-- MONTPRO, word-wise with the precomputed n'_R in x[E] (R174). -/
def execMontpro (d a b m e : Reg) (s : State) : Result :=
  montProduct (nprimeOkR (s.reg m) (s.reg e)) d a b m s

/-- MONTPRO.B, bitwise: "the n'-register of VAR 1 is never read" (R174). -/
def execMontproB (d a b m _e : Reg) (s : State) : Result := montProduct true d a b m s

/-- MONTPRO.RC, word-wise recompute, n'_w in the low word of x[E] (R174). -/
def execMontproRc (d a b m e : Reg) (s : State) : Result :=
  montProduct (nprimeOkW (s.reg m) (s.reg e)) d a b m s

end Sys2Proof.Machine
end

