-- ==== Sys2Proof/Machine/Multiply.lean ====
section
/-! DEFINITION. The commands of 43_multiply.md. -/

namespace Sys2Proof.Machine

/-- MUL: x[D] <- wrapN(x[A] · x[B]) (R140). -/
def execMul (d a b : Reg) (s : State) : Result :=
  succeed (s.setReg d (wrapN s.kWords (s.reg a * s.reg b)))

/-- SQR: x[D] <- x[A]²; InvalidLength when ulen(x[A]) > N/2 (R141). -/
def execSqr (d a : Reg) (s : State) : Result :=
  checked (errIf (registerWords s.kWords / 2 < ulen (s.reg a)) .invalidLength) s
    (s.setReg d (s.reg a * s.reg a))

end Sys2Proof.Machine
end

