-- ==== Sys2Proof/Machine/Representation.lean ====
section
/-! DEFINITION. The commands of 41_representation.md: copy, bit operations, length queries, shifts,
compare and predicates. None writes C. -/

namespace Sys2Proof.Machine

/-- MOV: x[D] <- x[A] (R100). -/
def execMov (d a : Reg) (s : State) : Result := succeed (s.setReg d (s.reg a))

/-- CLR: x[D] <- 0 (R101). -/
def execClr (d : Reg) (s : State) : Result := succeed (s.setReg d 0)

/-- GETBIT: RES <- x[A][arg]; InvalidLength when arg ≥ 32N (R102). -/
def execGetbit (a : Reg) (s : State) : Result :=
  checked (bitIndexCheck s.kWords s.scalar) s (s.setRes (BitVec.ofNat 32 (bitOf (s.reg a) s.scalar)))

/-- SETBIT: bit arg of x[D] set; InvalidLength when arg ≥ 32N (R103). -/
def execSetbit (d : Reg) (s : State) : Result :=
  checked (bitIndexCheck s.kWords s.scalar) s (s.setReg d (setBitNat (s.reg d) s.scalar))

/-- CLRBIT: bit arg of x[D] cleared; InvalidLength when arg ≥ 32N (R104). -/
def execClrbit (d : Reg) (s : State) : Result :=
  checked (bitIndexCheck s.kWords s.scalar) s (s.setReg d (clearBitNat (s.reg d) s.scalar))

/-- ULEN: RES <- ulen(x[A]) (R105). -/
def execUlen (a : Reg) (s : State) : Result := succeed (s.setRes (BitVec.ofNat 32 (ulen (s.reg a))))

/-- MSB: RES <- msb(x[A]) (R106). -/
def execMsb (a : Reg) (s : State) : Result := succeed (s.setRes (BitVec.ofNat 32 (msb (s.reg a))))

/-- SHL: x[D] <- wrapN(x[A] << arg) (R107). -/
def execShl (d a : Reg) (s : State) : Result :=
  succeed (s.setReg d (shiftLeftN s.kWords (s.reg a) s.scalar))

/-- SHR: x[D] <- x[A] >> arg (R108). -/
def execShr (d a : Reg) (s : State) : Result := succeed (s.setReg d (shiftRightN (s.reg a) s.scalar))

/-- SHL1: x[D] <- wrapN(x[A] << 1) (R109). -/
def execShl1 (d a : Reg) (s : State) : Result := succeed (s.setReg d (shiftLeftN s.kWords (s.reg a) 1))

/-- SHR1: x[D] <- x[A] >> 1 (R110). -/
def execShr1 (d a : Reg) (s : State) : Result := succeed (s.setReg d (shiftRightN (s.reg a) 1))

/-- SHLW: x[D] <- wrapN(x[A] << 32) (R111). -/
def execShlw (d a : Reg) (s : State) : Result := succeed (s.setReg d (shiftLeftN s.kWords (s.reg a) 32))

/-- SHRW: x[D] <- x[A] >> 32 (R112). -/
def execShrw (d a : Reg) (s : State) : Result := succeed (s.setReg d (shiftRightN (s.reg a) 32))

/-- CMP: RES <- the three-way compare of x[A] and x[B], unsigned (R113). -/
def execCmp (a b : Reg) (s : State) : Result := succeed (s.setRes (compareWord (s.reg a) (s.reg b)))

/-- TSTZ: RES <- (x[A] = 0) ? 1 : 0 (R114). -/
def execTstz (a : Reg) (s : State) : Result := succeed (s.setRes (boolWord (s.reg a = 0)))

/-- TSTONE: RES <- (x[A] = 1) ? 1 : 0 (R115). -/
def execTstone (a : Reg) (s : State) : Result := succeed (s.setRes (boolWord (s.reg a = 1)))

/-- TSTODD: RES <- x[A][0] (R116). -/
def execTstodd (a : Reg) (s : State) : Result := succeed (s.setRes (BitVec.ofNat 32 (bitOf (s.reg a) 0)))

end Sys2Proof.Machine
end

