-- ==== Sys2Proof/Machine/Dispatch.lean ====
section
/-! DEFINITION. The meaning of every command: one arm per constructor, each one call. -/

namespace Sys2Proof.Machine

/-- Execution of a command (30_encoding.md R87). -/
def exec (i : Instr) (s : State) : Host.Outcome State Fault Refusal :=
  match i with
  | .mov d a => Sys2Proof.Machine.execMov d a s
  | .clr d => Sys2Proof.Machine.execClr d s
  | .getbit a => Sys2Proof.Machine.execGetbit a s
  | .setbit d => Sys2Proof.Machine.execSetbit d s
  | .clrbit d => Sys2Proof.Machine.execClrbit d s
  | .ulen a => Sys2Proof.Machine.execUlen a s
  | .msb a => Sys2Proof.Machine.execMsb a s
  | .shl d a => Sys2Proof.Machine.execShl d a s
  | .shr d a => Sys2Proof.Machine.execShr d a s
  | .shl1 d a => Sys2Proof.Machine.execShl1 d a s
  | .shr1 d a => Sys2Proof.Machine.execShr1 d a s
  | .shlw d a => Sys2Proof.Machine.execShlw d a s
  | .shrw d a => Sys2Proof.Machine.execShrw d a s
  | .cmp a b => Sys2Proof.Machine.execCmp a b s
  | .tstz a => Sys2Proof.Machine.execTstz a s
  | .tstone a => Sys2Proof.Machine.execTstone a s
  | .tstodd a => Sys2Proof.Machine.execTstodd a s
  | .add d a b => Sys2Proof.Machine.execAdd d a b s
  | .sub d a b => Sys2Proof.Machine.execSub d a b s
  | .addw d a => Sys2Proof.Machine.execAddw d a s
  | .subw d a => Sys2Proof.Machine.execSubw d a s
  | .mul d a b => Sys2Proof.Machine.execMul d a b s
  | .sqr d a => Sys2Proof.Machine.execSqr d a s
  | .div d e a b => Sys2Proof.Machine.execDiv d e a b s
  | .divHac d e a b => Sys2Proof.Machine.execDivHac d e a b s
  | .addmod d a b m => Sys2Proof.Machine.execAddmod d a b m s
  | .submod d a b m => Sys2Proof.Machine.execSubmod d a b m s
  | .mod d a m => Sys2Proof.Machine.execMod d a m s
  | .modHac d a m => Sys2Proof.Machine.execModHac d a m s
  | .mulmod d a b m => Sys2Proof.Machine.execMulmod d a b m s
  | .mulmodMw d a b m => Sys2Proof.Machine.execMulmodMw d a b m s
  | .mulmodMb d a b m => Sys2Proof.Machine.execMulmodMb d a b m s
  | .mulmodMr d a b m => Sys2Proof.Machine.execMulmodMr d a b m s
  | .mprime d m => Sys2Proof.Machine.execMprime d m s
  | .mprimeR d m => Sys2Proof.Machine.execMprimeR d m s
  | .mrconst d m => Sys2Proof.Machine.execMrconst d m s
  | .mrconstR2 d m => Sys2Proof.Machine.execMrconstR2 d m s
  | .redc d a m e => Sys2Proof.Machine.execRedc d a m e s
  | .montpro d a b m e => Sys2Proof.Machine.execMontpro d a b m e s
  | .montproB d a b m e => Sys2Proof.Machine.execMontproB d a b m e s
  | .montproRc d a b m e => Sys2Proof.Machine.execMontproRc d a b m e s
  | .exp d a b m => Sys2Proof.Machine.execExp d a b m s
  | .expK4 d a b m => Sys2Proof.Machine.execExpK4 d a b m s
  | .expMont d a b m => Sys2Proof.Machine.execExpMont d a b m s
  | .gcd d a b => Sys2Proof.Machine.execGcd d a b s
  | .bxgcd d e a b => Sys2Proof.Machine.execBxgcd d e a b s
  | .eea d e a b => Sys2Proof.Machine.execEea d e a b s
  | .inv d a m => Sys2Proof.Machine.execInv d a m s
  | .gfadd d a b => Sys2Proof.Machine.execGfadd d a b s
  | .gfmul d a b => Sys2Proof.Machine.execGfmul d a b s
  | .gfdiv d e a b => Sys2Proof.Machine.execGfdiv d e a b s
  | .gfmod d a m => Sys2Proof.Machine.execGfmod d a m s
  | .gfmulmod d a b m => Sys2Proof.Machine.execGfmulmod d a b m s
  | .gfinv d a m => Sys2Proof.Machine.execGfinv d a m s

end Sys2Proof.Machine
end

