-- ==== Sys2Proof/Machine/Window.lean ====
section
/-! DEFINITION. The register window the host reads and writes: 20_memory.md, the busy protocol of
70_reset_and_hazards.md R280, and soft reset. The window is the engine's only address space, and it is a
view of the registers: nothing is stored twice. -/

namespace Sys2Proof.Machine

/-- The register at a window offset (20_memory.md R51). -/
inductive WindowReg where
  /-- 0x000. -/
  | id
  /-- 0x004. -/
  | cmd
  /-- 0x008. -/
  | arg
  /-- 0x00C. -/
  | status
  /-- 0x010. -/
  | res
  /-- 0x014. -/
  | ctrl
  /-- Word j of Vi. -/
  | operand (i : Reg) (j : Nat)
  /-- A reserved offset. -/
  | reserved
deriving DecidableEq, Repr

/-- The operand word at an offset: off = 0x1000 + 4·(i·N + j), 0 ≤ i < 16, 0 ≤ j < N; above the last,
reserved (20_memory.md R51, R52). -/
def operandAt (k off : Nat) : WindowReg :=
  let index := (off - Config.operandBase) / 4
  if h : index / registerWords k < 16 then .operand ⟨index / registerWords k, h⟩ (index % registerWords k)
  else .reserved

/-- The register at an offset that is a multiple of 4 (20_memory.md R51). -/
def registerAt (k off : Nat) : WindowReg :=
  match off with
  | 0x000 => .id
  | 0x004 => .cmd
  | 0x008 => .arg
  | 0x00C => .status
  | 0x010 => .res
  | 0x014 => .ctrl
  | _ => if off < Config.operandBase then .reserved else operandAt k off

/-- The offset of word j of Vi (20_memory.md R52). -/
def operandOffset (k : Nat) (i : Reg) (j : Nat) : Nat :=
  Config.operandBase + 4 * (i.val * registerWords k + j)

/-- The value a read of a window register returns, `none` where the spec leaves it unspecified: RES and
the operand window while BUSY = 1 (20_memory.md R52, R53; 70_reset_and_hazards.md R280). -/
def readWindow (s : State) (r : WindowReg) : Option Word :=
  match r with
  | .id => some (idWord s.kWords)
  | .cmd => some s.cmd
  | .arg => some s.arg
  | .status => some (statusWord s)
  | .res => if s.busy then none else some s.res
  | .ctrl => some 0
  | .operand i j => if s.busy then none else some (wordOf (s.reg i) j)
  | .reserved => some 0

/-- A host read: the value returned stands in `readData`, and nothing of the engine changes (20_memory.md
R58). An unspecified value is a free value (93_implementation_defined.md U6, assumption 3). -/
def hostRead (s : State) (r : WindowReg) : State :=
  match readWindow s r with
  | some v => { s with readData := v }
  | none => { s with readData := Config.freeWord s.freeCount, freeCount := s.freeCount + 1 }

/-- A host write that arrives while BUSY = 1 is dropped and sets STATUS.OVR; otherwise it acts
(10_state.md R33, 70_reset_and_hazards.md R280). -/
def unlessBusy (s written : State) : State := if s.busy then { s with ovr := true } else written

/-- A host write to STATUS: bit 2 clears ANYERR, bit 3 clears OVR, the other bits are ignored, also while
BUSY = 1 (10_state.md R25). -/
def writeStatus (s : State) (v : Word) : State :=
  { s with anyErr := s.anyErr && !(bits v.toNat 2 1 == 1), ovr := s.ovr && !(bits v.toNat 3 1 == 1) }

/-- A host write to CTRL: bit 0 = 1 performs a soft reset, also while BUSY = 1; otherwise no effect
(10_state.md R28, 70_reset_and_hazards.md R271). -/
def writeCtrl (s : State) (v : Word) : State := if bits v.toNat 0 1 = 1 then s.resetEngine else s

/-- A host write of an operand word: only word j of Vi changes (20_memory.md R52). -/
def writeOperand (s : State) (i : Reg) (j : Nat) (v : Word) : State :=
  s.setReg i (withWord (s.reg i) j v)

/-- A host write (20_memory.md R52, R53, R58; 10_state.md R23–R29). -/
def hostWrite (s : State) (r : WindowReg) (v : Word) : State :=
  match r with
  | .id => s
  | .cmd => unlessBusy s (s.accept v)
  | .arg => unlessBusy s { s with arg := v }
  | .status => writeStatus s v
  | .res => s
  | .ctrl => writeCtrl s v
  | .operand i j => unlessBusy s (writeOperand s i j v)
  | .reserved => s

/-- The window offset of an absolute address, `none` outside the window of 2^24 bytes at ENGINE_BASE
(20_memory.md R50). -/
def offsetOf (base addr : Nat) : Option Nat :=
  if base ≤ addr ∧ addr < base + Config.windowBytes then some (addr - base) else none

/-- The width and address of an access. -/
def Access.place (a : Access) : Nat × Nat :=
  match a with
  | .read width addr => (width, addr)
  | .write width addr _ => (width, addr)

/-- The effect of an admitted access on a window register. -/
def Access.perform (a : Access) (s : State) (r : WindowReg) : State :=
  match a with
  | .read _ _ => hostRead s r
  | .write _ _ v => hostWrite s r v

/-- One host access (20_memory.md R50, R56, R57): outside the window a fault, not an aligned 32-bit
access a refusal, otherwise its effect, in one step. -/
def hostAccess (a : Access) (s : State) : Result :=
  match offsetOf s.base a.place.2 with
  | none => .fault .outsideWindow
  | some off =>
    if admittedAccess a.place.1 off then .next (a.perform s (registerAt s.kWords off))
    else .refused .accessNotAdmitted

/-- The byte at an absolute address of the window as a host with byte lanes sees it: lane addr mod 4 of
the aligned word, `none` outside the window or where the word is unspecified (20_memory.md R55). -/
def windowByte (s : State) (addr : Nat) : Option Byte :=
  match offsetOf s.base addr with
  | none => none
  | some off => (readWindow s (registerAt s.kWords (off - off % 4))).map (fun w => lane w (off % 4))

end Sys2Proof.Machine
end

