-- ==== Sys2Proof/Machine/Engine.lean ====
section
/-! DEFINITION. The engine's own move: the execution of the pending command (10_state.md R26, R35). -/

namespace Sys2Proof.Machine

/-- Execution of an accepted command word: decode first, an illegal word ends with IllegalCommand
(30_encoding.md R87, R88). -/
def execWord (w : Word) (s : State) : Result :=
  match decode w with
  | .ok i => exec i s
  | .error _ => raiseErr .illegalCommand s

/-- The engine moves: the pending command executes as one indivisible step, from its reads to its
completion (20_memory.md R62, 60_exceptions.md R246); with none pending the engine stays idle
(60_exceptions.md R260). -/
def engineMove (s : State) : Result :=
  match s.pend with
  | none => .next s
  | some p => execWord p.word s

/-- One turn (assumption 4). -/
def takeTurn (t : Turn) (s : State) : Result :=
  match t with
  | .host a => hostAccess a s
  | .engine => engineMove s
  | .powerOn => .next s.resetEngine

/-- The first turn to come and the state without it; where no turn is left, the engine moves, so that
every accepted command completes (60_exceptions.md R246). -/
def nextTurn (s : State) : Turn × State :=
  match s.turns with
  | [] => (.engine, s)
  | t :: rest => (t, { s with turns := rest })

/-- The build parameters are in range (93_implementation_defined.md U1, U2). -/
def validBuild (s : State) : Bool := validCapacity s.kWords && validBase s.base

/-- The state in which the command word w, with ARG as it stands, is accepted and the engine moves next. -/
def State.withCommand (s : State) (w : Word) : State :=
  let t := s.accept w
  { t with turns := .engine :: t.turns }

end Sys2Proof.Machine
end

