-- ==== Sys2Proof/Machine/Step.lean ====
section
/-! DEFINITION. One step of the machine: one turn of the host, the engine or the supply. -/

namespace Sys2Proof.Machine

/-- One step: a build out of range is refused, otherwise the next turn is taken. -/
def step (s : State) : Host.Outcome State Fault Refusal :=
  if validBuild s then takeTurn (nextTurn s).1 (nextTurn s).2 else .refused .invalidBuild

/-- `s` with the command word `w` in the pending-command latch and the engine's move next: the engine
fetches no instructions, and this is what the acceptance of a CMD write leaves (10_state.md R35,
20_memory.md R65, assumption 8). -/
def State.withFetchWord (s : State) (nbits w : Nat) : State :=
  s.withCommand (BitVec.ofNat 32 (w % 2 ^ nbits))

end Sys2Proof.Machine
end

