-- ==== Sys2Proof/Machine/ByteBuffer.lean ====
section
/-! DEFINITION. The host-side convention of big-endian byte buffers (20_memory.md R60, R61). -/

namespace Sys2Proof.Machine

/-- The value of a byte sequence, B[0] most significant: Σ B[i]·2^(8·(L−1−i)) (R60). -/
def valueOfBytesBE (bytes : List Byte) : Nat := bytes.foldl (fun v b => 256 * v + b.toNat) 0

/-- `FromBytesBE(B, L)`: InvalidLength when L > 4·N, otherwise the value (R60). -/
def fromBytesBE (k : Nat) (bytes : List Byte) : Except ErrCode Nat :=
  if 4 * registerWords k < bytes.length then .error .invalidLength else .ok (valueOfBytesBE bytes)

/-- The L low bytes of v, most significant first: B[i] = v[8·(L−1−i)+7 : 8·(L−1−i)] (R61). -/
def bytesBE (v : Nat) (len : Nat) : List Byte :=
  (List.range len).map (fun i => BitVec.ofNat 8 (v / 2 ^ (8 * (len - 1 - i))))

/-- `ToBytesBE(v, L)`: InvalidLength when L > 4·N or v ≥ 2^(8·L), otherwise the bytes (R61). -/
def toBytesBE (k v len : Nat) : Except ErrCode (List Byte) :=
  if 4 * registerWords k < len ∨ 2 ^ (8 * len) ≤ v then .error .invalidLength else .ok (bytesBE v len)

end Sys2Proof.Machine
end

