-- ==== Sys2Proof/Machine/Assembler.lean ====
section
/-! DEFINITION. The assembler syntax of 30_encoding.md R91–R95, on tokens: a mnemonic, its register
operands, and a final `#imm` (assumption 15). -/

namespace Sys2Proof.Machine

/-- An operand token: a register `v0`..`v15` or an immediate `#imm` (R91, R93). -/
inductive AsmOperand where
  /-- `v<r>`. -/
  | reg (r : Nat)
  /-- `#<v>`. -/
  | imm (v : Nat)
deriving DecidableEq, Repr

/-- An assembled command: the instruction, and the value to write to ARG before it, if any (R93). -/
structure AsmCommand where
  /-- The instruction whose word goes to CMD. -/
  instr : Instr
  /-- The value written to ARG first. -/
  imm : Option Word
deriving DecidableEq, Repr

/-- The commands that read ARG (30_encoding.md R85). -/
def readsArg (i : Instr) : Bool :=
  match i with
  | .getbit _ | .setbit _ | .clrbit _ | .shl _ _ | .shr _ _ | .addw _ _ | .subw _ _ => true
  | _ => false

/-- One register operand. -/
def asm1 (f : Reg → Instr) (rs : List Reg) : Option Instr :=
  match rs with
  | [r] => some (f r)
  | _ => none

/-- Two register operands. -/
def asm2 (f : Reg → Reg → Instr) (rs : List Reg) : Option Instr :=
  match rs with
  | [r, s] => some (f r s)
  | _ => none

/-- Three register operands. -/
def asm3 (f : Reg → Reg → Reg → Instr) (rs : List Reg) : Option Instr :=
  match rs with
  | [r, s, t] => some (f r s t)
  | _ => none

/-- Four register operands. -/
def asm4 (f : Reg → Reg → Reg → Reg → Instr) (rs : List Reg) : Option Instr :=
  match rs with
  | [r, s, t, u] => some (f r s t u)
  | _ => none

/-- Five register operands. -/
def asm5 (f : Reg → Reg → Reg → Reg → Reg → Instr) (rs : List Reg) : Option Instr :=
  match rs with
  | [r, s, t, u, v] => some (f r s t u v)
  | _ => none

/-- Mnemonics without a suffix, VAR = 0 (R86, R92). -/
def plainMnemonics : List (String × (List Reg → Option Instr)) :=
  [("MOV", asm2 .mov), ("CLR", asm1 .clr), ("GETBIT", asm1 .getbit), ("SETBIT", asm1 .setbit),
   ("CLRBIT", asm1 .clrbit), ("ULEN", asm1 .ulen), ("MSB", asm1 .msb), ("SHL", asm2 .shl),
   ("SHR", asm2 .shr), ("SHL1", asm2 .shl1), ("SHR1", asm2 .shr1), ("SHLW", asm2 .shlw),
   ("SHRW", asm2 .shrw), ("CMP", asm2 .cmp), ("TSTZ", asm1 .tstz), ("TSTONE", asm1 .tstone),
   ("TSTODD", asm1 .tstodd), ("ADD", asm3 .add), ("SUB", asm3 .sub), ("ADDW", asm2 .addw),
   ("SUBW", asm2 .subw), ("MUL", asm3 .mul), ("SQR", asm2 .sqr), ("DIV", asm4 .div),
   ("ADDMOD", asm4 .addmod), ("SUBMOD", asm4 .submod), ("MOD", asm3 .mod), ("MULMOD", asm4 .mulmod),
   ("MPRIME", asm2 .mprime), ("MRCONST", asm2 .mrconst), ("REDC", asm4 .redc), ("MONTPRO", asm5 .montpro),
   ("EXP", asm4 .exp), ("GCD", asm3 .gcd), ("BXGCD", asm4 .bxgcd), ("EEA", asm4 .eea), ("INV", asm3 .inv),
   ("GFADD", asm3 .gfadd), ("GFMUL", asm3 .gfmul), ("GFDIV", asm4 .gfdiv), ("GFMOD", asm3 .gfmod),
   ("GFMULMOD", asm4 .gfmulmod), ("GFINV", asm3 .gfinv)]

/-- Mnemonics with a variant suffix (R92). -/
def suffixedMnemonics : List (String × (List Reg → Option Instr)) :=
  [("DIV.CL", asm4 .div), ("DIV.HAC", asm4 .divHac), ("MOD.CL", asm3 .mod), ("MOD.HAC", asm3 .modHac),
   ("MULMOD.CL", asm4 .mulmod), ("MULMOD.MW", asm4 .mulmodMw), ("MULMOD.MB", asm4 .mulmodMb),
   ("MULMOD.MR", asm4 .mulmodMr), ("MPRIME.W", asm2 .mprime), ("MPRIME.R", asm2 .mprimeR),
   ("MRCONST.R", asm2 .mrconst), ("MRCONST.R2", asm2 .mrconstR2), ("MONTPRO.W", asm5 .montpro),
   ("MONTPRO.B", asm5 .montproB), ("MONTPRO.RC", asm5 .montproRc), ("EXP.BIN", asm4 .exp),
   ("EXP.K4", asm4 .expK4), ("EXP.MONT", asm4 .expMont)]

/-- Pseudo-instructions whose expansion has no immediate (R94). -/
def pseudoMnemonics : List (String × (List Reg → Option Instr)) :=
  [("GFSUB", asm3 .gfadd), ("SQRMOD", asm3 (fun d a m => .mulmod d a a m)), ("MONTMUL", asm4 .mulmodMw),
   ("MONTEXP", asm4 .expMont), ("MULMODCLASSIC", asm4 .mulmod), ("GFSQR", asm2 (fun d a => .gfmul d a a)),
   ("ZERO", asm1 .clr)]

/-- Pseudo-instructions that expand to a command with `#1` (R94). -/
def stepMnemonics : List (String × (List Reg → Option Instr)) :=
  [("INC", asm2 .addw), ("DEC", asm2 .subw)]

/-- `v0`..`v15` encode as 0..15; another number is no register (R95). -/
def asmReg (r : Nat) : Option Reg := if validRegisterNumber r then some (Fin.ofNat 16 r) else none

/-- The register operands of a token list, `none` where a token is no register. -/
def asmRegs : List AsmOperand → Option (List Reg)
  | [] => some []
  | .reg r :: rest =>
    match asmReg r, asmRegs rest with
    | some r', some rs => some (r' :: rs)
    | _, _ => none
  | .imm _ :: _ => none

/-- The instruction a mnemonic and its register operands stand for, from a table of mnemonics. -/
def asmLookup (table : List (String × (List Reg → Option Instr))) (name : String) (ops : List AsmOperand) :
    Option Instr :=
  match table.lookup name, asmRegs ops with
  | some f, some rs => f rs
  | _, _ => none

/-- A command written with a final `#imm`: an ARG-reading command, 0 ≤ imm < 2^32 (R93). -/
def assembleImm (name : String) (ops : List AsmOperand) (imm : Nat) : Option AsmCommand :=
  match asmLookup plainMnemonics name ops with
  | some i =>
    if readsArg i && validImmediate imm then some { instr := i, imm := some (BitVec.ofNat 32 imm) } else none
  | none => none

/-- A command written with register operands alone (R91, R92, R94). -/
def assemblePlain (name : String) (ops : List AsmOperand) : Option AsmCommand :=
  match asmLookup (plainMnemonics ++ suffixedMnemonics ++ pseudoMnemonics) name ops with
  | some i => some { instr := i, imm := none }
  | none =>
    match asmLookup stepMnemonics name ops with
    | some i => some { instr := i, imm := some 1 }
    | none => none

/-- The command of an assembler line, `none` where the line is not of the syntax (R91–R95). -/
def assemble (name : String) (ops : List AsmOperand) : Option AsmCommand :=
  match ops.getLast? with
  | some (.imm v) => assembleImm name ops.dropLast v
  | _ => assemblePlain name ops

end Sys2Proof.Machine
end

