-- ==== Sys2Proof/Machine/HostProgram.lean ====
section
/-! DEFINITION. The straight-line forms of the host-program syntax (30_encoding.md R96) as the turns they
stand for. Labels, goto and host arithmetic are "outside the engine" (R96) and have no form here
(assumption 12). -/

namespace Sys2Proof.Machine

/-- A host-program line (R96). -/
inductive HostLine where
  /-- `W off, val`. -/
  | w (off : Nat) (val : Word)
  /-- `R off -> $t`. -/
  | r (off : Nat)
  /-- `LOADV vi, val`. -/
  | loadv (i : Reg) (val : Nat)
  /-- `READV vi -> $t`. -/
  | readv (i : Reg)
  /-- `CMD <command>`, with `#imm` where there is one. -/
  | cmd (c : AsmCommand)
  /-- `WAIT`: `polls` reads of STATUS before the engine moves, and the read that finds BUSY = 0. -/
  | wait (polls : Nat)
deriving DecidableEq, Repr

/-- `MemWrite(off, 4, v)` (00_scope.md R12). -/
def memWrite (base off : Nat) (v : Word) : Turn := .host (.write 4 (base + off) v)

/-- `MemRead(off, 4)` (00_scope.md R12). -/
def memRead (base off : Nat) : Turn := .host (.read 4 (base + off))

/-- `CMD <command>`: the ARG write of R93, if any, then the CMD write of the encoding (R96). -/
def issue (base : Nat) (c : AsmCommand) : List Turn :=
  match c.imm with
  | some v => [memWrite base 0x008 v, memWrite base 0x004 (encode c.instr)]
  | none => [memWrite base 0x004 (encode c.instr)]

/-- The turns a host-program line stands for (R96). -/
def HostLine.turns (l : HostLine) (k base : Nat) : List Turn :=
  match l with
  | .w off val => [memWrite base off val]
  | .r off => [memRead base off]
  | .loadv i val =>
    (List.range (registerWords k)).map (fun j => memWrite base (operandOffset k i j) (wordOf val j))
  | .readv i => (List.range (registerWords k)).map (fun j => memRead base (operandOffset k i j))
  | .cmd c => issue base c
  | .wait polls => List.replicate polls (memRead base 0x00C) ++ [.engine, memRead base 0x00C]

/-- The turns of a straight-line host program. -/
def hostProgram (k base : Nat) (lines : List HostLine) : List Turn := lines.flatMap (fun l => l.turns k base)

/-- The value `READV` assembles from the words read, word 0 first (R96). -/
def valueOfWords (ws : List Word) : Nat := ws.foldr (fun w v => w.toNat + 2 ^ 32 * v) 0

end Sys2Proof.Machine
end

