-- ==== Sys2Proof/Safety.lean ====
section
/-! DEFINITION. What the statements about this machine are said with: how a command completes, what it
writes and leaves, and the invariant of the machine. -/

namespace Sys2Proof.Machine

/-! ### What a completed command leaves -/

/-- No command changes these: the build, ARG (10_state.md R23), CMD (R27), OVR (60_exceptions.md R246) and
the host's side of the model. -/
def KeepsHostSide (s t : State) : Prop :=
  t.kWords = s.kWords ∧ t.base = s.base ∧ t.arg = s.arg ∧ t.cmd = s.cmd ∧ t.ovr = s.ovr ∧
  t.turns = s.turns ∧ t.readData = s.readData

/-- Completion with a code (60_exceptions.md R246): ERR is the code, ANYERR is set if it is not 0, PEND is
empty, BUSY is 0, and what no command changes stands as before. -/
def CompletesWith (e : ErrCode) (s t : State) : Prop :=
  t.err = e ∧ t.anyErr = (s.anyErr || decide (e ≠ .ok)) ∧ t.pend = none ∧ t.busy = false ∧ KeepsHostSide s t

/-- Every operand register outside `ds` is as before. -/
def RegsSameExcept (ds : List Reg) (s t : State) : Prop := ∀ r, r ∉ ds → t.reg r = s.reg r

/-- Success, with the registers of `ds` written and nothing else: RES, C and every other register are as
before. -/
def WritesRegs (ds : List Reg) (s t : State) : Prop :=
  CompletesWith .ok s t ∧ RegsSameExcept ds s t ∧ t.res = s.res ∧ t.c = s.c ∧ t.freeCount = s.freeCount

/-- The same for a command that writes an unspecified value: one more free value has been used. -/
def WritesRegsFree (ds : List Reg) (s t : State) : Prop :=
  CompletesWith .ok s t ∧ RegsSameExcept ds s t ∧ t.res = s.res ∧ t.c = s.c ∧ t.freeCount = s.freeCount + 1

/-- Success, with RES written and nothing else. -/
def WritesRes (s t : State) : Prop :=
  CompletesWith .ok s t ∧ (∀ r, t.reg r = s.reg r) ∧ t.c = s.c ∧ t.freeCount = s.freeCount

/-- Success, with the registers of `ds` and C written and nothing else. -/
def WritesRegsAndC (ds : List Reg) (s t : State) : Prop :=
  CompletesWith .ok s t ∧ RegsSameExcept ds s t ∧ t.res = s.res ∧ t.freeCount = s.freeCount

/-- An error: STATUS.ERR, STATUS.ANYERR, PEND and BUSY are written and nothing else is
(60_exceptions.md R243). -/
def FailsWith (e : ErrCode) (s t : State) : Prop :=
  e ≠ .ok ∧ CompletesWith e s t ∧ (∀ r, t.reg r = s.reg r) ∧ t.res = s.res ∧ t.c = s.c ∧ t.freeCount = s.freeCount

/-! ### How a command runs -/

/-- `e` is the error of the first check of a list whose condition holds (60_exceptions.md R241). -/
def FirstFailing : List (Prop × ErrCode) → ErrCode → Prop
  | [], _ => False
  | c :: rest, e => (c.1 ∧ e = c.2) ∨ (¬ c.1 ∧ FirstFailing rest e)

/-- No check of a list has its condition. -/
def NoneFailing (checks : List (Prop × ErrCode)) : Prop := ∀ c ∈ checks, ¬ c.1

/-- How a rule's pseudocode runs: where none of its checks has its condition, `exec` answers a next state
with the results `post`; where one has, `exec` answers a next state that fails with the error of the
first. -/
def RunsAs (i : Instr) (s : State) (checks : List (Prop × ErrCode)) (post : State → Prop) : Prop :=
  (NoneFailing checks → ∃ t, exec i s = .next t ∧ post t) ∧
  (∀ e, FirstFailing checks e → ∃ t, exec i s = .next t ∧ FailsWith e s t)

/-- The checks of ModCheck(x[M], false): a zero modulus, a modulus of more than K words (45_modular.md R160). -/
def modulusChecks (s : State) (m : Reg) : List (Prop × ErrCode) :=
  [(s.reg m = 0, .divisionByZero), (2 ^ (32 * s.kWords) ≤ s.reg m, .invalidLength)]

/-- The checks of ModCheck(x[M], true): also an even modulus (45_modular.md R160). -/
def oddModulusChecks (s : State) (m : Reg) : List (Prop × ErrCode) :=
  modulusChecks s m ++ [(s.reg m % 2 = 0, .notInvertible)]

/-- RangeCheck(x[V], x[M]) (45_modular.md R161). -/
def rangeChecks (s : State) (v m : Reg) : List (Prop × ErrCode) := [(s.reg m ≤ s.reg v, .operandOutOfRange)]

/-- The destination registers of a command (30_encoding.md R86, "writes"). -/
def destinations (i : Instr) : List Reg :=
  match i with
  | .getbit _ | .ulen _ | .msb _ | .cmp _ _ | .tstz _ | .tstone _ | .tstodd _ => []
  | .mov d _ | .clr d | .setbit d | .clrbit d | .shl d _ | .shr d _ | .shl1 d _ | .shr1 d _ | .shlw d _
  | .shrw d _ | .add d _ _ | .sub d _ _ | .addw d _ | .subw d _ | .mul d _ _ | .sqr d _ | .addmod d _ _ _
  | .submod d _ _ _ | .mod d _ _ | .modHac d _ _ | .mulmod d _ _ _ | .mulmodMw d _ _ _ | .mulmodMb d _ _ _
  | .mulmodMr d _ _ _ | .mprime d _ | .mprimeR d _ | .mrconst d _ | .mrconstR2 d _ | .redc d _ _ _
  | .montpro d _ _ _ _ | .montproB d _ _ _ _ | .montproRc d _ _ _ _ | .exp d _ _ _ | .expK4 d _ _ _
  | .expMont d _ _ _ | .gcd d _ _ | .inv d _ _ | .gfadd d _ _ | .gfmul d _ _ | .gfmod d _ _
  | .gfmulmod d _ _ _ | .gfinv d _ _ => [d]
  | .div d e _ _ | .divHac d e _ _ | .bxgcd d e _ _ | .eea d e _ _ | .gfdiv d e _ _ => [d, e]

/-- The commands that write C (10_state.md R30). -/
def writesC (i : Instr) : Bool :=
  match i with
  | .add _ _ _ | .sub _ _ _ | .addw _ _ | .subw _ _ => true
  | _ => false

/-- The commands that write RES (10_state.md R24). -/
def writesRes (i : Instr) : Bool :=
  match i with
  | .getbit _ | .ulen _ | .msb _ | .cmp _ _ | .tstz _ | .tstone _ | .tstodd _ => true
  | _ => false

/-- The loop of 48_gcd_inversion.md R202, as a relation: from (r0, r1) and (s0, s1) it ends with r and s. -/
inductive EeaRun : Nat → Nat → Int → Int → Nat → Int → Prop where
  | done (r0 : Nat) (s0 s1 : Int) : EeaRun r0 0 s0 s1 r0 s0
  | turn (r0 r1 : Nat) (s0 s1 : Int) (r : Nat) (s : Int) (h : r1 ≠ 0)
      (next : EeaRun r1 (r0 - r0 / r1 * r1) s1 (s0 - (r0 / r1 : Nat) * s1) r s) : EeaRun r0 r1 s0 s1 r s

/-- Bit j of the product of two binary polynomials: the parity of the i ≤ j with a[j−i] = b[i] = 1. -/
def productBit (a b j : Nat) : Bool :=
  ((List.range (j + 1)).filter (fun i => a.testBit (j - i) && b.testBit i)).length % 2 == 1

/-- The OPC values of the opcode map, each with the number of VAR values it defines, which are those from 0
on (30_encoding.md R86). -/
def legalRows : List (Nat × Nat) :=
  [(0x01, 1), (0x02, 1), (0x03, 1), (0x04, 1), (0x05, 1), (0x06, 1), (0x07, 1), (0x08, 1), (0x09, 1),
   (0x0A, 1), (0x0B, 1), (0x0C, 1), (0x0D, 1), (0x0E, 1), (0x0F, 1), (0x10, 1), (0x11, 1),
   (0x20, 1), (0x21, 1), (0x22, 1), (0x23, 1), (0x28, 1), (0x29, 1), (0x30, 2),
   (0x38, 1), (0x39, 1), (0x3A, 2), (0x3B, 4), (0x40, 2), (0x41, 2), (0x42, 1), (0x43, 3), (0x48, 3),
   (0x50, 1), (0x51, 1), (0x52, 1), (0x53, 1), (0x60, 1), (0x61, 1), (0x62, 1), (0x63, 1), (0x64, 1), (0x65, 1)]

/-- A command word is legal: RSV is 0, and VAR is one of the values of OPC's row (30_encoding.md R86, R88). -/
def LegalWord (w : Word) : Prop :=
  w.getLsbD 31 = false ∧ ∃ p ∈ legalRows, bits w.toNat 0 8 = p.1 ∧ bits w.toNat 28 3 < p.2

/-! ### The invariant -/

/-- Every operand register holds a value below 2^(32N) (00_scope.md R9, 10_state.md R21). -/
def RegsInRange (s : State) : Prop := ∀ r : Reg, s.reg r < registerLimit s.kWords

/-- The invariant of the machine: the build is one the spec admits; every register is in range; BUSY is 1
exactly while PEND holds a command (10_state.md R34, R35); the latch holds the word CMD reads and the
value of ARG, which cannot change while BUSY = 1 (R27, R33); ERR is never InvariantViolation
(60_exceptions.md R240). -/
structure Inv (s : State) : Prop where
  build : validBuild s = true
  range : RegsInRange s
  busy_iff : s.busy = s.pend.isSome
  latch : ∀ p, s.pend = some p → p.word = s.cmd ∧ p.arg = s.arg
  err_defined : s.err ≠ .invariantViolation

end Sys2Proof.Machine
end

