-- ==== Sys2Proof/Certificates/Slice0/Obligations.lean ====
section
/-! DEFINITION. The statements for the provers. In each, a command is executed in any state at all (any
build, any register values), unless a premise says otherwise; "arg" is the scalar captured at acceptance,
so the statements about ARG commands have the premise that a command is pending. `RunsAs i s checks post`
says both where the command completes with its results and where and how it fails. -/

open Sys2Proof Sys2Proof.Machine

/-! ### 41_representation.md -/

/-- MOV copies and CLR zeroes a register (R100, R101). -/
def Obligations.MovCopiesClrZeroes : Prop :=
  (∀ (d a : Reg) (s : State), ∃ t, exec (.mov d a) s = .next t ∧ WritesRegs [d] s t ∧ t.reg d = s.reg a) ∧
  (∀ (d : Reg) (s : State), ∃ t, exec (.clr d) s = .next t ∧ WritesRegs [d] s t ∧ t.reg d = 0)

/-- GETBIT reads the bit that arg indexes, and fails where there is none (R102). -/
def Obligations.GetbitReadsIndexedBit : Prop :=
  ∀ (a : Reg) (s : State) (p : Pending), s.pend = some p →
    RunsAs (.getbit a) s [(registerBits s.kWords ≤ p.arg.toNat, .invalidLength)]
      (fun t => WritesRes s t ∧ t.res = if (s.reg a).testBit p.arg.toNat then 1 else 0)

/-- SETBIT and CLRBIT change the bit that arg indexes and no other (R103, R104). -/
def Obligations.SetbitClrbitChangeOneBit : Prop :=
  ∀ (d : Reg) (s : State) (p : Pending), s.pend = some p →
    RunsAs (.setbit d) s [(registerBits s.kWords ≤ p.arg.toNat, .invalidLength)]
      (fun t => WritesRegs [d] s t ∧ ∀ j, (t.reg d).testBit j = (decide (j = p.arg.toNat) || (s.reg d).testBit j)) ∧
    RunsAs (.clrbit d) s [(registerBits s.kWords ≤ p.arg.toNat, .invalidLength)]
      (fun t => WritesRegs [d] s t ∧ ∀ j, (t.reg d).testBit j = (!decide (j = p.arg.toNat) && (s.reg d).testBit j))

/-- ULEN is the least number of words, and MSB the least number of bits, that hold the value (R105, R106). -/
def Obligations.UlenMsbMeasureLength : Prop :=
  ∀ (a : Reg) (s : State), validCapacity s.kWords = true → s.reg a < registerLimit s.kWords →
    (∃ t, exec (.ulen a) s = .next t ∧ WritesRes s t ∧ ∀ l, t.res.toNat ≤ l ↔ s.reg a < 2 ^ (32 * l)) ∧
    (∃ t, exec (.msb a) s = .next t ∧ WritesRes s t ∧ ∀ b, t.res.toNat ≤ b ↔ s.reg a < 2 ^ b)

/-- SHL multiplies by 2^arg and drops what leaves the register; SHR divides; any count is allowed (R107,
R108). -/
def Obligations.ShlShrShiftByArg : Prop :=
  ∀ (d a : Reg) (s : State) (p : Pending), s.pend = some p →
    (∃ t, exec (.shl d a) s = .next t ∧ WritesRegs [d] s t ∧
      t.reg d = s.reg a * 2 ^ p.arg.toNat % 2 ^ registerBits s.kWords) ∧
    (∃ t, exec (.shr d a) s = .next t ∧ WritesRegs [d] s t ∧ t.reg d = s.reg a / 2 ^ p.arg.toNat)

/-- The four fixed shifts shift by one bit and by one word (R109–R112). -/
def Obligations.FixedShiftsByBitAndWord : Prop :=
  ∀ (d a : Reg) (s : State),
    (∃ t, exec (.shl1 d a) s = .next t ∧ WritesRegs [d] s t ∧ t.reg d = s.reg a * 2 % 2 ^ registerBits s.kWords) ∧
    (∃ t, exec (.shr1 d a) s = .next t ∧ WritesRegs [d] s t ∧ t.reg d = s.reg a / 2) ∧
    (∃ t, exec (.shlw d a) s = .next t ∧ WritesRegs [d] s t ∧
      t.reg d = s.reg a * 2 ^ 32 % 2 ^ registerBits s.kWords) ∧
    (∃ t, exec (.shrw d a) s = .next t ∧ WritesRegs [d] s t ∧ t.reg d = s.reg a / 2 ^ 32)

/-- CMP gives −1, 0 or 1 as a word (R113). -/
def Obligations.CmpThreeWay : Prop :=
  ∀ (a b : Reg) (s : State), ∃ t, exec (.cmp a b) s = .next t ∧ WritesRes s t ∧
    (s.reg a < s.reg b → t.res = 0xFFFFFFFF) ∧ (s.reg a = s.reg b → t.res = 0) ∧ (s.reg b < s.reg a → t.res = 1)

/-- The predicates give 1 for zero, for one, and for an odd value, and 0 otherwise (R114–R116). -/
def Obligations.PredicatesSetRes : Prop :=
  ∀ (a : Reg) (s : State),
    (∃ t, exec (.tstz a) s = .next t ∧ WritesRes s t ∧ t.res = if s.reg a = 0 then 1 else 0) ∧
    (∃ t, exec (.tstone a) s = .next t ∧ WritesRes s t ∧ t.res = if s.reg a = 1 then 1 else 0) ∧
    (∃ t, exec (.tstodd a) s = .next t ∧ WritesRes s t ∧ t.res = if s.reg a % 2 = 1 then 1 else 0)

/-! ### 42_addsub.md, 43_multiply.md, 44_division.md -/

/-- ADD and ADDW wrap and report the carry out of bit 32N − 1 (R130, R132). -/
def Obligations.AddAddwWrapWithCarry : Prop :=
  (∀ (d a b : Reg) (s : State), ∃ t, exec (.add d a b) s = .next t ∧ WritesRegsAndC [d] s t ∧
    t.reg d = (s.reg a + s.reg b) % 2 ^ registerBits s.kWords ∧
    t.c = decide (2 ^ registerBits s.kWords ≤ s.reg a + s.reg b)) ∧
  (∀ (d a : Reg) (s : State) (p : Pending), s.pend = some p →
    ∃ t, exec (.addw d a) s = .next t ∧ WritesRegsAndC [d] s t ∧
      t.reg d = (s.reg a + p.arg.toNat) % 2 ^ registerBits s.kWords ∧
      t.c = decide (2 ^ registerBits s.kWords ≤ s.reg a + p.arg.toNat))

/-- SUB and SUBW give the non-negative residue and report the borrow (R131, R133). -/
def Obligations.SubSubwWrapWithBorrow : Prop :=
  (∀ (d a b : Reg) (s : State), ∃ t, exec (.sub d a b) s = .next t ∧ WritesRegsAndC [d] s t ∧
    (t.reg d : Int) = ((s.reg a : Int) - s.reg b) % (2 ^ registerBits s.kWords : Nat) ∧
    t.c = decide (s.reg a < s.reg b)) ∧
  (∀ (d a : Reg) (s : State) (p : Pending), s.pend = some p →
    ∃ t, exec (.subw d a) s = .next t ∧ WritesRegsAndC [d] s t ∧
      (t.reg d : Int) = ((s.reg a : Int) - p.arg.toNat) % (2 ^ registerBits s.kWords : Nat) ∧
      t.c = decide (s.reg a < p.arg.toNat))

/-- MUL truncates the product to the register, without a flag (R140). -/
def Obligations.MulTruncatesProduct : Prop :=
  ∀ (d a b : Reg) (s : State), ∃ t, exec (.mul d a b) s = .next t ∧ WritesRegs [d] s t ∧
    t.reg d = s.reg a * s.reg b % 2 ^ registerBits s.kWords

/-- SQR squares a value of at most N/2 words exactly, and fails above (R141). -/
def Obligations.SqrSquaresExactlyOrFails : Prop :=
  ∀ (d a : Reg) (s : State),
    RunsAs (.sqr d a) s [(2 ^ (32 * (registerWords s.kWords / 2)) ≤ s.reg a, .invalidLength)]
      (fun t => WritesRegs [d] s t ∧ t.reg d = s.reg a * s.reg a ∧ t.reg d < 2 ^ registerBits s.kWords)

/-- DIV gives the quotient and the remainder in both variants, refuses equal destinations before it looks
at the divisor, and refuses a zero divisor (R150, R151, R152). -/
def Obligations.DivGivesQuotientRemainder : Prop :=
  ∀ (d e a b : Reg) (s : State), ∀ i ∈ [Instr.div d e a b, Instr.divHac d e a b],
    RunsAs i s [(d = e, .aliasViolation), (s.reg b = 0, .divisionByZero)]
      (fun t => WritesRegs [d, e] s t ∧ s.reg a = t.reg d * s.reg b + t.reg e ∧ t.reg e < s.reg b)

/-! ### 45_modular.md -/

/-- ADDMOD and SUBMOD (R160, R161, R162, R163): SUBMOD's result is the residue that gives x[A] back when x[B] is
added. -/
def Obligations.AddmodSubmodReduce : Prop :=
  ∀ (d a b m : Reg) (s : State),
    RunsAs (.addmod d a b m) s (modulusChecks s m ++ rangeChecks s a m ++ rangeChecks s b m)
      (fun t => WritesRegs [d] s t ∧ t.reg d = (s.reg a + s.reg b) % s.reg m) ∧
    RunsAs (.submod d a b m) s (modulusChecks s m ++ rangeChecks s a m ++ rangeChecks s b m)
      (fun t => WritesRegs [d] s t ∧ t.reg d < s.reg m ∧ (t.reg d + s.reg b) % s.reg m = s.reg a)

/-- MOD is the remainder, for every dividend and every non-zero modulus, in both variants (R164). -/
def Obligations.ModIsRemainder : Prop :=
  ∀ (d a m : Reg) (s : State), ∀ i ∈ [Instr.mod d a m, Instr.modHac d a m],
    RunsAs i s [(s.reg m = 0, .divisionByZero)]
      (fun t => WritesRegs [d] s t ∧ t.reg d < s.reg m ∧ ∃ q, s.reg a = q * s.reg m + t.reg d)

/-- MULMOD in its four variants; the Montgomery variants refuse an even modulus (R165). -/
def Obligations.MulmodMultipliesModulo : Prop :=
  ∀ (d a b m : Reg) (s : State),
    RunsAs (.mulmod d a b m) s (modulusChecks s m ++ rangeChecks s a m ++ rangeChecks s b m)
      (fun t => WritesRegs [d] s t ∧ t.reg d = s.reg a * s.reg b % s.reg m) ∧
    ∀ i ∈ [Instr.mulmodMw d a b m, Instr.mulmodMb d a b m, Instr.mulmodMr d a b m],
      RunsAs i s (oddModulusChecks s m ++ rangeChecks s a m ++ rangeChecks s b m)
        (fun t => WritesRegs [d] s t ∧ t.reg d = s.reg a * s.reg b % s.reg m)

/-! ### 46_montgomery.md -/

/-- MPRIME gives the n' with n · n' ≡ −1 modulo 2^32, and MPRIME.R modulo R = 2^(32·ulen(n)) (R171). -/
def Obligations.MprimeIsNegatedInverse : Prop :=
  ∀ (d m : Reg) (s : State),
    RunsAs (.mprime d m) s (oddModulusChecks s m)
      (fun t => WritesRegs [d] s t ∧ t.reg d < 2 ^ 32 ∧ (s.reg m * t.reg d + 1) % 2 ^ 32 = 0) ∧
    RunsAs (.mprimeR d m) s (oddModulusChecks s m)
      (fun t => WritesRegs [d] s t ∧ t.reg d < 2 ^ (32 * ulen (s.reg m)) ∧
        (s.reg m * t.reg d + 1) % 2 ^ (32 * ulen (s.reg m)) = 0)

/-- MRCONST gives R mod n, and MRCONST.R2 gives R² mod n, for odd and even n (R172). -/
def Obligations.MrconstReducesRadix : Prop :=
  ∀ (d m : Reg) (s : State),
    RunsAs (.mrconst d m) s (modulusChecks s m)
      (fun t => WritesRegs [d] s t ∧ t.reg d = 2 ^ (32 * ulen (s.reg m)) % s.reg m) ∧
    RunsAs (.mrconstR2 d m) s (modulusChecks s m)
      (fun t => WritesRegs [d] s t ∧ t.reg d = 2 ^ (64 * ulen (s.reg m)) % s.reg m)

/-- REDC gives the residue whose product with R is T, for T below n·R and a right n'; for a wrong n' it
completes with some value of the register's range (R170, R173). -/
def Obligations.RedcDividesByRadix : Prop :=
  ∀ (d a m e : Reg) (s : State),
    RunsAs (.redc d a m e) s
      (oddModulusChecks s m ++ [(s.reg m * 2 ^ (32 * ulen (s.reg m)) ≤ s.reg a, .operandOutOfRange)])
      (fun t =>
        if (s.reg m * (s.reg e % 2 ^ 32) + 1) % 2 ^ 32 = 0 then
          WritesRegs [d] s t ∧ t.reg d < s.reg m ∧
            t.reg d * 2 ^ (32 * ulen (s.reg m)) % s.reg m = s.reg a % s.reg m
        else WritesRegsFree [d] s t ∧ t.reg d < 2 ^ registerBits s.kWords)

/-- MONTPRO gives the residue whose product with R is x[A]·x[B]; the variants differ only in the n' they
read: n'_R, none, and n'_w (R170, R174). -/
def Obligations.MontproIsMontgomeryProduct : Prop :=
  ∀ (d a b m e : Reg) (s : State),
    let radixOf := 2 ^ (32 * ulen (s.reg m))
    let checks := oddModulusChecks s m ++ rangeChecks s a m ++ rangeChecks s b m
    let product := fun t : State =>
      WritesRegs [d] s t ∧ t.reg d < s.reg m ∧ t.reg d * radixOf % s.reg m = s.reg a * s.reg b % s.reg m
    let unspecified := fun t : State => WritesRegsFree [d] s t ∧ t.reg d < 2 ^ registerBits s.kWords
    RunsAs (.montpro d a b m e) s checks
      (fun t => if (s.reg m * (s.reg e % radixOf) + 1) % radixOf = 0 then product t else unspecified t) ∧
    RunsAs (.montproB d a b m e) s checks product ∧
    RunsAs (.montproRc d a b m e) s checks
      (fun t => if (s.reg m * (s.reg e % 2 ^ 32) + 1) % 2 ^ 32 = 0 then product t else unspecified t)

/-- The variants of MONTPRO agree where each reads a right n', wherever it stands, and MULMOD's Montgomery
variants agree with the classic one on an odd modulus (R175). -/
def Obligations.MontgomeryVariantsAgree : Prop :=
  (∀ (d a b m e e' e'' : Reg) (s : State),
    (s.reg m * (s.reg e % 2 ^ (32 * ulen (s.reg m))) + 1) % 2 ^ (32 * ulen (s.reg m)) = 0 →
    (s.reg m * (s.reg e'' % 2 ^ 32) + 1) % 2 ^ 32 = 0 →
    exec (.montpro d a b m e) s = exec (.montproB d a b m e') s ∧
    exec (.montproRc d a b m e'') s = exec (.montproB d a b m e') s) ∧
  (∀ (d a b m : Reg) (s : State), s.reg m % 2 = 1 →
    exec (.mulmodMw d a b m) s = exec (.mulmod d a b m) s ∧
    exec (.mulmodMb d a b m) s = exec (.mulmod d a b m) s ∧
    exec (.mulmodMr d a b m) s = exec (.mulmod d a b m) s)

/-! ### 47_exponentiation.md, 48_gcd_inversion.md -/

/-- EXP gives the exact residue of the power, for every exponent, with g^0 = 1; EXP.MONT refuses an even
modulus (R190). -/
def Obligations.ExpIsExactResidue : Prop :=
  ∀ (d a b m : Reg) (s : State),
    (∀ i ∈ [Instr.exp d a b m, Instr.expK4 d a b m],
      RunsAs i s (modulusChecks s m ++ rangeChecks s a m)
        (fun t => WritesRegs [d] s t ∧ t.reg d = s.reg a ^ s.reg b % s.reg m)) ∧
    RunsAs (.expMont d a b m) s (oddModulusChecks s m ++ rangeChecks s a m)
      (fun t => WritesRegs [d] s t ∧ t.reg d = s.reg a ^ s.reg b % s.reg m)

/-- GCD divides both values, every common divisor divides it, and it is 0 only for 0 and 0 (R200). -/
def Obligations.GcdIsGreatestCommonDivisor : Prop :=
  ∀ (d a b : Reg) (s : State), ∃ t, exec (.gcd d a b) s = .next t ∧ WritesRegs [d] s t ∧
    t.reg d ∣ s.reg a ∧ t.reg d ∣ s.reg b ∧ ∀ c, c ∣ s.reg a → c ∣ s.reg b → c ∣ t.reg d

/-- BXGCD writes the gcd, and some value of the register's range as its coefficient; equal destinations
are refused (R201). -/
def Obligations.BxgcdGcdExactCoefficientFree : Prop :=
  ∀ (d e a b : Reg) (s : State),
    RunsAs (.bxgcd d e a b) s [(d = e, .aliasViolation)]
      (fun t => WritesRegsFree [d, e] s t ∧ t.reg d = Nat.gcd (s.reg a) (s.reg b) ∧
        t.reg e < 2 ^ registerBits s.kWords)

/-- EEA writes what the rule's loop ends with: the gcd, and the coefficient s0 reduced modulo x[B]; and
x[A] times the coefficient is the gcd modulo x[B] (R202). -/
def Obligations.EeaRunsTheRecurrence : Prop :=
  ∀ (d e a b : Reg) (s : State),
    RunsAs (.eea d e a b) s [(d = e, .aliasViolation), (s.reg b = 0, .divisionByZero)]
      (fun t => WritesRegs [d, e] s t ∧
        (∃ x, EeaRun (s.reg a) (s.reg b) 1 0 (t.reg d) x ∧ (t.reg e : Int) = x % (s.reg b : Int)) ∧
        t.reg d = Nat.gcd (s.reg a) (s.reg b) ∧ s.reg a * t.reg e % s.reg b = t.reg d % s.reg b)

/-- INV gives the inverse in [0, n), for any x[A] coprime to n (R203). -/
def Obligations.InvIsModularInverse : Prop :=
  ∀ (d a m : Reg) (s : State),
    RunsAs (.inv d a m) s (modulusChecks s m ++ [(Nat.gcd (s.reg a) (s.reg m) ≠ 1, .notInvertible)])
      (fun t => WritesRegs [d] s t ∧ t.reg d < s.reg m ∧ s.reg a * t.reg d % s.reg m = 1 % s.reg m)

/-! ### 49_gf2m.md -/

/-- GFADD is bitwise exclusive or, and GFMUL the carry-less product bit by bit, cut to the register (R220,
R221). -/
def Obligations.GfaddGfmulBitwise : Prop :=
  ∀ (d a b : Reg) (s : State),
    (∃ t, exec (.gfadd d a b) s = .next t ∧ WritesRegs [d] s t ∧
      ∀ j, (t.reg d).testBit j = ((s.reg a).testBit j != (s.reg b).testBit j)) ∧
    (∃ t, exec (.gfmul d a b) s = .next t ∧ WritesRegs [d] s t ∧
      ∀ j, (t.reg d).testBit j = (decide (j < registerBits s.kWords) && productBit (s.reg a) (s.reg b) j))

/-- GFDIV gives a quotient and a remainder of smaller degree than the divisor, and no other pair satisfies
both (R222; the uniqueness is that of pdivmod in 00_scope.md R13). -/
def Obligations.GfdivGivesQuotientRemainder : Prop :=
  ∀ (d e a b : Reg) (s : State),
    RunsAs (.gfdiv d e a b) s [(d = e, .aliasViolation), (s.reg b = 0, .divisionByZero)]
      (fun t => WritesRegs [d, e] s t ∧ s.reg a = clmul (t.reg d) (s.reg b) ^^^ t.reg e ∧
        msb (t.reg e) < msb (s.reg b) ∧
        ∀ q r, s.reg a = clmul q (s.reg b) ^^^ r → msb r < msb (s.reg b) → q = t.reg d ∧ r = t.reg e)

/-- GFMOD and GFMULMOD give the remainder of the value, and of the product cut to the register, by the
polynomial x[M] (R223, R224). -/
def Obligations.GfmodGfmulmodReduce : Prop :=
  ∀ (d a b m : Reg) (s : State),
    RunsAs (.gfmod d a m) s [(s.reg m = 0, .divisionByZero)]
      (fun t => WritesRegs [d] s t ∧ msb (t.reg d) < msb (s.reg m) ∧
        ∃ q, s.reg a = clmul q (s.reg m) ^^^ t.reg d) ∧
    RunsAs (.gfmulmod d a b m) s [(s.reg m = 0, .divisionByZero)]
      (fun t => WritesRegs [d] s t ∧ msb (t.reg d) < msb (s.reg m) ∧
        ∃ q, clmul (s.reg a) (s.reg b) % 2 ^ registerBits s.kWords = clmul q (s.reg m) ^^^ t.reg d)

/-- GFINV gives the inverse of degree below that of p, and fails with NotInvertible exactly where the
reduced value and p have a common factor of degree at least 1 (R225). -/
def Obligations.GfinvIsPolynomialInverse : Prop :=
  ∀ (d a m : Reg) (s : State),
    RunsAs (.gfinv d a m) s
      [(s.reg m = 0, .divisionByZero),
       (∃ f x y, 2 ≤ msb f ∧ clmul x f = pmod (s.reg a) (s.reg m) ∧ clmul y f = s.reg m, .notInvertible)]
      (fun t => WritesRegs [d] s t ∧ msb (t.reg d) < msb (s.reg m) ∧
        pmod (clmul (pmod (s.reg a) (s.reg m)) (t.reg d)) (s.reg m) = pmod 1 (s.reg m))

/-! ### Every command -/

/-- Every command completes, in every state: BUSY = 0, PEND empty, one defined code in ERR, ANYERR set with
any error, and nothing of the host's side changed; InvariantViolation and IllegalCommand come from no
command's rule, and IllegalCommand is what an undecodable word ends with (R240, R246). -/
def Obligations.EveryCommandCompletes : Prop :=
  (∀ (i : Instr) (s : State), ∃ t e, exec i s = .next t ∧ CompletesWith e s t ∧
    e ≠ .invariantViolation ∧ e ≠ .illegalCommand) ∧
  (∀ (w : Word) (s : State), ∃ t e, execWord w s = .next t ∧ CompletesWith e s t ∧ e ≠ .invariantViolation)

/-- Errors are precise: after any command word that ended with an error every register, RES and C are as
before it (R243). -/
def Obligations.ErrorsArePrecise : Prop :=
  ∀ (w : Word) (s t : State), execWord w s = .next t → t.err ≠ .ok → FailsWith t.err s t

/-- Only ADD, SUB, ADDW and SUBW write C (R30). -/
def Obligations.OnlyAdderWritesCarry : Prop :=
  ∀ (i : Instr) (s t : State), exec i s = .next t → writesC i = false → t.c = s.c

/-- Only the scalar-result commands write RES, and they write no operand register (R24). -/
def Obligations.OnlyScalarCommandsWriteRes : Prop :=
  ∀ (i : Instr) (s t : State), exec i s = .next t →
    (writesRes i = false → t.res = s.res) ∧ (writesRes i = true → ∀ r, t.reg r = s.reg r)

/-- A command changes no operand register but its destinations (R86). -/
def Obligations.OnlyDestinationsChange : Prop :=
  ∀ (i : Instr) (s t : State), exec i s = .next t → RegsSameExcept (destinations i) s t

/-- Every command keeps every register in [0, 2^(32N)) (R9, R21). -/
def Obligations.CommandsKeepRegistersInRange : Prop :=
  ∀ (i : Instr) (s t : State), RegsInRange s → exec i s = .next t → RegsInRange t

/-- Variants that the spec requires to agree: DIV (R150), MOD (R164) and EXP (R191) in full, and SQR with MUL
where SQR accepts (R141). -/
def Obligations.VariantsAgree : Prop :=
  ∀ (d e a b m : Reg) (s : State),
    exec (.divHac d e a b) s = exec (.div d e a b) s ∧
    exec (.modHac d a m) s = exec (.mod d a m) s ∧
    exec (.expK4 d a b m) s = exec (.exp d a b m) s ∧
    (s.reg m % 2 = 1 → exec (.expMont d a b m) s = exec (.exp d a b m) s) ∧
    (s.reg a < 2 ^ (32 * (s.kWords + 1)) → exec (.sqr d a) s = exec (.mul d a a) s)

/-! ### 30_encoding.md -/

/-- Decoding the word of an instruction gives the instruction, for every instruction and every operand
(R80, R86). -/
def Obligations.DecodeEncodeRoundTrip : Prop := ∀ i : Instr, decode (encode i) = .ok i

/-- A word decodes to an instruction exactly when its used bits are those of the instruction's word: no used
bit is dropped, and no unused field has an effect (R81, R86). -/
def Obligations.DecodeReadsExactlyUsedBits : Prop :=
  ∀ (i : Instr) (w : Word), decode w = .ok i ↔ w &&& usedMask i = encode i

/-- The illegal words are exactly those with RSV = 1, an OPC that is in no row, or a VAR that OPC's row does
not list; each ends with IllegalCommand and changes nothing but STATUS and PEND (R88). -/
def Obligations.IllegalWordsEndWithIllegalCommand : Prop :=
  ∀ w : Word,
    (¬ LegalWord w → ∀ s, ∃ t, execWord w s = .next t ∧ FailsWith .illegalCommand s t) ∧
    (LegalWord w → ∃ i, decode w = .ok i)

/-- The opcode map: a word whose OPC, VAR and RSV are those of a row executes the row's command, on the
registers its fields name, whatever its unused fields hold (R81, R86, R87). -/
def Obligations.LegalWordsExecuteTheirRow : Prop :=
  ∀ (w : Word) (d a b m e : Reg),
    d.val = bits w.toNat 8 4 → a.val = bits w.toNat 12 4 → b.val = bits w.toNat 16 4 →
    m.val = bits w.toNat 20 4 → e.val = bits w.toNat 24 4 →
    ∀ row ∈ [(0x00000001#32, Instr.mov d a), (0x00000002#32, Instr.clr d), (0x00000003#32, Instr.getbit a),
        (0x00000004#32, Instr.setbit d), (0x00000005#32, Instr.clrbit d), (0x00000006#32, Instr.ulen a),
        (0x00000007#32, Instr.msb a), (0x00000008#32, Instr.shl d a), (0x00000009#32, Instr.shr d a),
        (0x0000000A#32, Instr.shl1 d a), (0x0000000B#32, Instr.shr1 d a), (0x0000000C#32, Instr.shlw d a),
        (0x0000000D#32, Instr.shrw d a), (0x0000000E#32, Instr.cmp a b), (0x0000000F#32, Instr.tstz a),
        (0x00000010#32, Instr.tstone a), (0x00000011#32, Instr.tstodd a), (0x00000020#32, Instr.add d a b),
        (0x00000021#32, Instr.sub d a b), (0x00000022#32, Instr.addw d a), (0x00000023#32, Instr.subw d a),
        (0x00000028#32, Instr.mul d a b), (0x00000029#32, Instr.sqr d a), (0x00000030#32, Instr.div d e a b),
        (0x10000030#32, Instr.divHac d e a b), (0x00000038#32, Instr.addmod d a b m),
        (0x00000039#32, Instr.submod d a b m), (0x0000003A#32, Instr.mod d a m),
        (0x1000003A#32, Instr.modHac d a m), (0x0000003B#32, Instr.mulmod d a b m),
        (0x1000003B#32, Instr.mulmodMw d a b m), (0x2000003B#32, Instr.mulmodMb d a b m),
        (0x3000003B#32, Instr.mulmodMr d a b m), (0x00000040#32, Instr.mprime d m),
        (0x10000040#32, Instr.mprimeR d m), (0x00000041#32, Instr.mrconst d m),
        (0x10000041#32, Instr.mrconstR2 d m), (0x00000042#32, Instr.redc d a m e),
        (0x00000043#32, Instr.montpro d a b m e), (0x10000043#32, Instr.montproB d a b m e),
        (0x20000043#32, Instr.montproRc d a b m e), (0x00000048#32, Instr.exp d a b m),
        (0x10000048#32, Instr.expK4 d a b m), (0x20000048#32, Instr.expMont d a b m),
        (0x00000050#32, Instr.gcd d a b), (0x00000051#32, Instr.bxgcd d e a b),
        (0x00000052#32, Instr.eea d e a b), (0x00000053#32, Instr.inv d a m),
        (0x00000060#32, Instr.gfadd d a b), (0x00000061#32, Instr.gfmul d a b),
        (0x00000062#32, Instr.gfdiv d e a b), (0x00000063#32, Instr.gfmod d a m),
        (0x00000064#32, Instr.gfmulmod d a b m), (0x00000065#32, Instr.gfinv d a m)],
      w &&& 0xF00000FF#32 = row.1 → decode w = .ok row.2 ∧ ∀ s, execWord w s = exec row.2 s

/-- Eleven example words of the spec, at least one of each family, decode to the commands they are printed
with (41_representation.md to 49_gf2m.md). -/
def Obligations.SpecExampleWordsDecode : Prop :=
  decode 0x00002108 = .ok (.shl 1 2) ∧ decode 0x00001223 = .ok (.subw 2 1) ∧
  decode 0x00021328 = .ok (.mul 3 1 2) ∧ decode 0x00001229 = .ok (.sqr 2 1) ∧
  decode 0x14021330 = .ok (.divHac 3 4 1 2) ∧ decode 0x2032143B = .ok (.mulmodMb 4 1 2 3) ∧
  decode 0x05301442 = .ok (.redc 4 1 3 5) ∧ decode 0x25321443 = .ok (.montproRc 4 1 2 3 5) ∧
  decode 0x20321448 = .ok (.expMont 4 1 2 3) ∧ decode 0x04021352 = .ok (.eea 3 4 1 2) ∧
  decode 0x00321464 = .ok (.gfmulmod 4 1 2 3)

/-! ### The step, the host's accesses and reset -/

/-- The engine's move, from the state `s'` with the turn taken: a pending command that decodes runs, as `exec`
of it (R35, R62, R87); a pending word that does not decode ends with IllegalCommand (R87, R88); with none
pending nothing changes (R260). The turns, and that the engine moves where none is left, are the model's
choice (assumption 4). -/
def Obligations.StepRunsPendingCommand : Prop :=
  ∀ (s s' : State), validBuild s = true →
    ((∃ rest, s.turns = .engine :: rest ∧ s' = { s with turns := rest }) ∨ (s.turns = [] ∧ s' = s)) →
    (∀ (p : Pending) (i : Instr), s.pend = some p → decode p.word = .ok i → step s = exec i s') ∧
    (∀ p : Pending, s.pend = some p → (∀ i, decode p.word ≠ .ok i) →
      ∃ t, step s = .next t ∧ FailsWith .illegalCommand s' t) ∧
    (s.pend = none → step s = .next s')

/-- An ARG write while BUSY = 0 sets ARG and nothing else (R23). -/
def Obligations.ArgWriteSetsArg : Prop :=
  ∀ (s : State) (w : Word) (rest : List Turn), validBuild s = true → s.busy = false →
    s.turns = .host (.write 4 (s.base + 0x008) w) :: rest → step s = .next { s with turns := rest, arg := w }

/-- A CMD write while BUSY = 0 is accepted: PEND, CMD and BUSY are written, ERR and all else stand as before
(R27, R31, R34, R35). -/
def Obligations.CmdWriteIsAccepted : Prop :=
  ∀ (s : State) (w : Word) (rest : List Turn), validBuild s = true → s.busy = false →
    s.turns = .host (.write 4 (s.base + 0x004) w) :: rest →
    step s = .next { s with turns := rest, pend := some { word := w, arg := s.arg }, cmd := w, busy := true }

/-- While BUSY = 1 a write to CMD, ARG or any operand word is dropped and sets OVR, and has no other effect
(R33, R280). -/
def Obligations.BusyWritesAreDropped : Prop :=
  ∀ (s : State) (off : Nat) (v : Word) (rest : List Turn), validBuild s = true → s.busy = true →
    (off = 0x004 ∨ off = 0x008 ∨ ∃ (i : Reg) (j : Nat), j < registerWords s.kWords ∧ off = operandOffset s.kWords i j) →
    s.turns = .host (.write 4 (s.base + off) v) :: rest → step s = .next { s with turns := rest, ovr := true }

/-- A write of an operand word while BUSY = 0 sets that word of that register and no other word of any
register, and no other element (R52). -/
def Obligations.OperandWriteSetsOneWord : Prop :=
  ∀ (s : State) (i : Reg) (j : Nat) (v : Word) (rest : List Turn), validBuild s = true → s.busy = false →
    j < registerWords s.kWords → s.turns = .host (.write 4 (s.base + operandOffset s.kWords i j) v) :: rest →
    ∃ t, step s = .next t ∧ { t with x := s.x } = { s with turns := rest } ∧
      ∀ (r : Reg) (l : Nat), wordOf (t.reg r) l = if r = i ∧ l = j then v else wordOf (s.reg r) l

/-- What a host read returns: at any time ID, CMD, ARG, STATUS and CTRL, and while BUSY = 0 RES and the
operand words; nothing else changes (R23–R29, R52, R280). The ERR field of STATUS is the code's number of
60_exceptions.md R240. -/
def Obligations.ReadsReturnRegisters : Prop :=
  ∀ (s : State) (off : Nat) (rest : List Turn), validBuild s = true →
    s.turns = .host (.read 4 (s.base + off)) :: rest →
    (off = 0x000 → ∃ t, step s = .next t ∧ t = { s with turns := rest, readData := t.readData } ∧
      bits t.readData.toNat 0 16 = s.kWords ∧ bits t.readData.toNat 16 8 = 16 ∧ bits t.readData.toNat 24 8 = 1) ∧
    (off = 0x004 → step s = .next { s with turns := rest, readData := s.cmd }) ∧
    (off = 0x008 → step s = .next { s with turns := rest, readData := s.arg }) ∧
    (off = 0x00C → ∃ t, step s = .next t ∧ t = { s with turns := rest, readData := t.readData } ∧
      t.readData.getLsbD 0 = s.busy ∧ t.readData.getLsbD 1 = s.c ∧ t.readData.getLsbD 2 = s.anyErr ∧
      t.readData.getLsbD 3 = s.ovr ∧ bits t.readData.toNat 8 24 = 0 ∧
      ∀ code ∈ [(ErrCode.ok, 0), (.invalidLength, 1), (.divisionByZero, 2), (.notInvertible, 3),
          (.invariantViolation, 4), (.illegalCommand, 5), (.aliasViolation, 6), (.operandOutOfRange, 7)],
        s.err = code.1 → bits t.readData.toNat 4 4 = code.2) ∧
    (off = 0x010 → s.busy = false → step s = .next { s with turns := rest, readData := s.res }) ∧
    (off = 0x014 → step s = .next { s with turns := rest, readData := 0 }) ∧
    (∀ (i : Reg) (j : Nat), s.busy = false → j < registerWords s.kWords → off = operandOffset s.kWords i j →
      step s = .next { s with turns := rest, readData := wordOf (s.reg i) j })

/-- No admitted read of the window has a side effect: only the value returned, and the model's count of free
values, change (R58, R67). -/
def Obligations.ReadsHaveNoSideEffect : Prop :=
  ∀ (s : State) (off : Nat) (rest : List Turn), validBuild s = true → off < 2 ^ 24 → off % 4 = 0 →
    s.turns = .host (.read 4 (s.base + off)) :: rest →
    ∃ v n, step s = .next { s with turns := rest, readData := v, freeCount := n }

/-- A write to STATUS clears ANYERR where its bit 2 is 1 and OVR where its bit 3 is 1, also while BUSY = 1,
and nothing else (R25). -/
def Obligations.StatusWriteClearsStickyBits : Prop :=
  ∀ (s : State) (v : Word) (rest : List Turn), validBuild s = true →
    s.turns = .host (.write 4 (s.base + 0x00C) v) :: rest →
    step s = .next { s with
      turns := rest, anyErr := s.anyErr && !v.getLsbD 2, ovr := s.ovr && !v.getLsbD 3 }

/-- A write of 1 to CTRL.SRST, and power-on, at any time, also while BUSY = 1, leave every element at its
reset value, a pending command discarded (R38, R270, R271); a write of 0 has no effect (R28). That the turns
to come stay, so that the host goes on after a reset, is the model's choice (assumption 11). -/
def Obligations.ResetGivesResetValues : Prop :=
  ∀ (s : State) (rest : List Turn), validBuild s = true →
    (s.turns = .powerOn :: rest ∨ (∃ v : Word, v.getLsbD 0 = true ∧ s.turns = .host (.write 4 (s.base + 0x014) v) :: rest) →
      ∃ t, step s = .next t ∧ (∀ r, t.reg r = 0) ∧ t.arg = 0 ∧ t.res = 0 ∧ t.cmd = 0 ∧ statusWord t = 0 ∧
        t.pend = none ∧ readWindow t .ctrl = some 0 ∧ readWindow t .id = readWindow s .id ∧ t.base = s.base ∧
        t.turns = rest) ∧
    (∀ v : Word, v.getLsbD 0 = false → s.turns = .host (.write 4 (s.base + 0x014) v) :: rest →
      step s = .next { s with turns := rest })

/-- A read of a reserved offset returns 0 and changes nothing else, and a write to one is ignored, at any
time (R53); so are the writes to ID and RES (R24, R29). -/
def Obligations.ReservedOffsetsReadZeroIgnoreWrites : Prop :=
  ∀ (s : State) (off : Nat) (rest : List Turn), validBuild s = true → off % 4 = 0 →
    ((0x018 ≤ off ∧ off < 0x1000) ∨ (0x1000 + 64 * registerWords s.kWords ≤ off ∧ off < 2 ^ 24) →
      s.turns = .host (.read 4 (s.base + off)) :: rest → step s = .next { s with turns := rest, readData := 0 }) ∧
    (∀ v : Word, (off = 0x000 ∨ off = 0x010 ∨ (0x018 ≤ off ∧ off < 0x1000) ∨
        (0x1000 + 64 * registerWords s.kWords ≤ off ∧ off < 2 ^ 24)) →
      s.turns = .host (.write 4 (s.base + off) v) :: rest → step s = .next { s with turns := rest })

/-- In a build out of range every step is refused, whatever turn comes, or none: for K as U1 says, for a base
that is not aligned by the model's choice (assumption 1). An access inside the window that is not an aligned
32-bit access is refused (R56, U8). One outside the window faults, which is the model's choice (assumption
6). -/
def Obligations.WrongAccessesStop : Prop :=
  (∀ s : State, validBuild s = false → step s = .refused .invalidBuild) ∧
  (∀ (s : State) (width addr : Nat) (v : Word) (rest : List Turn),
    ∀ a ∈ [Access.read width addr, Access.write width addr v], validBuild s = true → s.turns = .host a :: rest →
    (s.base ≤ addr → addr < s.base + 2 ^ 24 → (width ≠ 4 ∨ addr % 4 ≠ 0) → step s = .refused .accessNotAdmitted) ∧
    (addr < s.base ∨ s.base + 2 ^ 24 ≤ addr → step s = .fault .outsideWindow))

/-- Every accepted command completes: while the host only polls STATUS, the step after the last poll leaves
BUSY = 0 and PEND empty (R246, R290). That the engine moves once no turn is left is the model's choice
(assumption 4). -/
def Obligations.AcceptedCommandCompletes : Prop :=
  ∀ (s : State) (polls : Nat), Inv s → s.turns = List.replicate polls (memRead s.base 0x00C) →
    ∃ t, Sys2Proof.core.run (polls + 1) s = .next t ∧ t.busy = false ∧ t.pend = none

/-- Loading an operand through the window leaves exactly its value in the register, whatever the register
held, and nothing else changed (R52, R96). -/
def Obligations.LoadvLoadsTheValue : Prop :=
  ∀ (s : State) (i : Reg) (v : Nat), Inv s → s.busy = false → v < 2 ^ registerBits s.kWords →
    s.turns = (HostLine.loadv i v).turns s.kWords s.base →
    Sys2Proof.core.run (registerWords s.kWords) s = .next { s with turns := [], x := s.x.set i v }

/-! ### The invariant -/

/-- Every step keeps the invariant (10_state.md R21, R34, R35; 60_exceptions.md R240). -/
def Obligations.StepKeepsInvariant : Prop := ∀ s t : State, Inv s → step s = .next t → Inv t

/-- The invariant holds at reset, for every build the spec admits (R38, R270). -/
def Obligations.ResetMeetsInvariant : Prop :=
  Inv State.reset ∧ ∀ (k base : Nat) (turns : List Turn), validCapacity k = true → validBase base = true →
    Inv (State.resetWith k base turns 0 0)

/-- The reset state: every architectural element has the spec's reset value (R38). -/
def Obligations.ResetStateValues : Prop :=
  (∀ r, State.reset.reg r = 0) ∧ State.reset.arg = 0 ∧ State.reset.res = 0 ∧ State.reset.cmd = 0 ∧
  statusWord State.reset = 0 ∧ State.reset.pend = none ∧ readWindow State.reset .ctrl = some 0

/-! ### 20_memory.md, big-endian byte buffers -/

/-- Byte buffers are big-endian. FromBytesBE gives Σ B[i]·2^(8·(L−1−i)), B[0] most significant, and fails
with InvalidLength for more than 4N bytes (R60). ToBytesBE gives the bytes v[8·(L−1−i)+7 : 8·(L−1−i)], and
fails with InvalidLength for more than 4N bytes or a value that is not below 2^(8L) (R61). Every buffer
within the capacity comes back from its value (R61). -/
def Obligations.ByteBufferRoundTrip : Prop :=
  ∀ k : Nat,
    (∀ bytes : List Byte,
      (bytes.length ≤ 4 * registerWords k → ∃ v, fromBytesBE k bytes = .ok v ∧
        v = ∑ i : Fin bytes.length, bytes[i].toNat * 2 ^ (8 * (bytes.length - 1 - i.val)) ∧
        v < 2 ^ (8 * bytes.length) ∧ toBytesBE k v bytes.length = .ok bytes) ∧
      (4 * registerWords k < bytes.length → fromBytesBE k bytes = .error .invalidLength)) ∧
    (∀ v len : Nat,
      (len ≤ 4 * registerWords k → v < 2 ^ (8 * len) → ∃ bytes, toBytesBE k v len = .ok bytes ∧
        bytes.length = len ∧ ∀ (i : Nat) (h : i < bytes.length), bytes[i].toNat = bits v (8 * (len - 1 - i)) 8) ∧
      (4 * registerWords k < len ∨ 2 ^ (8 * len) ≤ v → toBytesBE k v len = .error .invalidLength))
end

