-- ==== Sys2Proof/Laws/Operands.lean ====
section
/-! SUPPORT. What the queries and updates of register values are, in plain arithmetic. -/

namespace Sys2Proof.Machine

/-- `msb(v)` is the least b with v < 2^b (00_scope.md R11). -/
theorem msb_le_iff {v b : Nat} : msb v ≤ b ↔ v < 2 ^ b := by
  unfold msb
  split
  · next h => subst h; simp
  · next h => rw [Nat.succ_le_iff, Nat.log2_lt h]

theorem lt_two_pow_msb (v : Nat) : v < 2 ^ msb v := msb_le_iff.1 (Nat.le_refl _)

theorem lt_msb_iff {v b : Nat} : b < msb v ↔ 2 ^ b ≤ v := by
  rw [← Nat.not_le, msb_le_iff, Nat.not_lt]

@[simp] theorem msb_zero : msb 0 = 0 := rfl

theorem msb_eq_zero {v : Nat} : msb v = 0 ↔ v = 0 := by
  unfold msb; split <;> simp_all

theorem msb_pos {v : Nat} (h : v ≠ 0) : 0 < msb v := Nat.pos_of_ne_zero (mt msb_eq_zero.1 h)

/-- The top bit of a non-zero value is set. -/
theorem testBit_msb_pred {v : Nat} (h : v ≠ 0) : v.testBit (msb v - 1) = true := by
  have h1 := Nat.log2_self_le h
  have h2 : v < 2 ^ (Nat.log2 v + 1) := Nat.lt_log2_self
  have : msb v - 1 = Nat.log2 v := by simp [msb, h]
  rw [this, Nat.testBit_eq_decide_div_mod_eq]
  have : v / 2 ^ Nat.log2 v = 1 :=
    Nat.div_eq_of_lt_le (by simpa using h1) (by rw [Nat.pow_succ] at h2; omega)
  simp [this]

/-- Bits at and above `msb` are clear. -/
theorem testBit_of_msb_le {v i : Nat} (h : msb v ≤ i) : v.testBit i = false :=
  Nat.testBit_lt_two_pow (msb_le_iff.1 h)

/-- A value whose bits at and above b are clear has bit length at most b. -/
theorem msb_le_of_testBit {v b : Nat} (h : ∀ i, b ≤ i → v.testBit i = false) : msb v ≤ b :=
  msb_le_iff.2 (Nat.lt_pow_two_of_testBit v h)

/-- `ulen(v)` is the least L with v < 2^(32L) (00_scope.md R11). -/
theorem ulen_le_iff {v l : Nat} : ulen v ≤ l ↔ v < 2 ^ (32 * l) := by
  rw [← msb_le_iff]; unfold ulen; omega

theorem lt_two_pow_ulen (v : Nat) : v < 2 ^ (32 * ulen v) := ulen_le_iff.1 (Nat.le_refl _)

theorem registerLimit_pos (k : Nat) : 0 < registerLimit k := Nat.two_pow_pos _

theorem wrapN_lt (k v : Nat) : wrapN k v < registerLimit k := Nat.mod_lt _ (registerLimit_pos k)

theorem wrapN_of_lt {k v : Nat} (h : v < registerLimit k) : wrapN k v = v := Nat.mod_eq_of_lt h

theorem registerWords_half (k : Nat) : registerWords k / 2 = k + 1 := by unfold registerWords; omega

/-- A value of at most K words fits a register with room for its square (45_modular.md R160). -/
theorem lt_limit_of_ulen_le {k v : Nat} (h : ulen v ≤ k) : v < registerLimit k := by
  refine Nat.lt_of_lt_of_le (ulen_le_iff.1 h) (Nat.pow_le_pow_right (by omega) ?_)
  unfold registerBits registerWords; omega

theorem sq_lt_limit_of_ulen_le {k v : Nat} (h : ulen v ≤ k + 1) : v * v < registerLimit k := by
  have h1 := ulen_le_iff.1 h
  have : registerLimit k = 2 ^ (32 * (k + 1)) * 2 ^ (32 * (k + 1)) := by
    rw [← Nat.pow_add]; unfold registerLimit registerBits registerWords; congr 1; omega
  rw [this]
  exact Nat.mul_lt_mul'' h1 h1

/-- SHL computes wrapN(v · 2^s) for every count (41_representation.md R107). -/
theorem shiftLeftN_eq (k v s : Nat) : shiftLeftN k v s = v * 2 ^ s % registerLimit k := by
  unfold shiftLeftN
  split
  · next h =>
    obtain ⟨d, rfl⟩ := Nat.exists_eq_add_of_le h
    unfold registerLimit
    rw [Nat.pow_add, Nat.mul_left_comm, Nat.mul_mod_right]
  · rw [Nat.shiftLeft_eq, wrapN]

theorem shiftRightN_eq (v s : Nat) : shiftRightN v s = v / 2 ^ s := Nat.shiftRight_eq_div_pow v s

theorem bitOf_lt_two (v i : Nat) : bitOf v i < 2 := Nat.mod_lt _ (by omega)

theorem bitOf_eq_testBit (v i : Nat) : bitOf v i = (v.testBit i).toNat := by
  rw [bitOf, Nat.testBit_eq_decide_div_mod_eq]
  have : v / 2 ^ i % 2 < 2 := Nat.mod_lt _ (by omega)
  generalize v / 2 ^ i % 2 = n at *
  match n, this with
  | 0, _ => rfl
  | 1, _ => rfl

/-- Below, at and above bit i: v = high · 2^(i+1) + v[i] · 2^i + low. -/
theorem split_at_bit (v i : Nat) : v = v / 2 ^ i / 2 * 2 ^ i * 2 + bitOf v i * 2 ^ i + v % 2 ^ i := by
  have h1 := Nat.div_add_mod v (2 ^ i)
  have h2 := Nat.div_add_mod (v / 2 ^ i) 2
  unfold bitOf
  have h3 : 2 ^ i * (2 * (v / 2 ^ i / 2) + v / 2 ^ i % 2) = 2 ^ i * (v / 2 ^ i) := by rw [h2]
  rw [Nat.mul_add] at h3
  have h4 : 2 ^ i * (2 * (v / 2 ^ i / 2)) = v / 2 ^ i / 2 * 2 ^ i * 2 := by
    rw [Nat.mul_comm 2, ← Nat.mul_assoc, Nat.mul_comm (2 ^ i)]
  have h5 := Nat.mul_comm (2 ^ i) (v / 2 ^ i % 2)
  omega

/-- Word j of a value, as a number. -/
theorem wordOf_toNat (v j : Nat) : (wordOf v j).toNat = v / 2 ^ (32 * j) % 2 ^ 32 := by
  simp [wordOf, BitVec.toNat_ofNat]

/-- Below, at and above word j: v = high · 2^(32(j+1)) + word j · 2^(32j) + low. -/
theorem split_at_word (v j : Nat) :
    v = v / 2 ^ (32 * j) / 2 ^ 32 * 2 ^ 32 * 2 ^ (32 * j) + (wordOf v j).toNat * 2 ^ (32 * j) + v % 2 ^ (32 * j) := by
  rw [wordOf_toNat, ← Nat.add_mul]
  have h2 := Nat.div_add_mod (v / 2 ^ (32 * j)) (2 ^ 32)
  rw [Nat.mul_comm (v / 2 ^ (32 * j) / 2 ^ 32), h2, Nat.mul_comm]
  exact (Nat.div_add_mod v _).symm

/-- Replacing word j keeps what lies above and below it. -/
theorem withWord_eq (v j : Nat) (w : Word) :
    withWord v j w =
      v / 2 ^ (32 * j) / 2 ^ 32 * 2 ^ 32 * 2 ^ (32 * j) + w.toNat * 2 ^ (32 * j) + v % 2 ^ (32 * j) := by
  have h := split_at_word v j
  unfold withWord
  omega

/-- The bits of word j. -/
theorem wordOf_getLsbD (v j i : Nat) : (wordOf v j).getLsbD i = (decide (i < 32) && v.testBit (32 * j + i)) := by
  rw [wordOf, BitVec.getLsbD_ofNat, Nat.testBit_div_two_pow, Nat.add_comm]

/-- The bits of a value with word j replaced. -/
theorem withWord_testBit (v j : Nat) (w : Word) (i : Nat) :
    (withWord v j w).testBit i =
      if 32 * j ≤ i ∧ i < 32 * j + 32 then w.getLsbD (i - 32 * j) else v.testBit i := by
  have h : withWord v j w =
      2 ^ (32 * j) * (2 ^ 32 * (v / 2 ^ (32 * j) / 2 ^ 32) + w.toNat) + v % 2 ^ (32 * j) := by
    rw [withWord_eq, Nat.mul_add, Nat.mul_comm (2 ^ (32 * j)), Nat.mul_comm (2 ^ (32 * j)) w.toNat,
      Nat.mul_comm (2 ^ 32)]
  rw [h, Nat.testBit_two_pow_mul_add _ (Nat.mod_lt _ (Nat.two_pow_pos _)),
    Nat.testBit_two_pow_mul_add _ w.isLt, Nat.testBit_mod_two_pow, Nat.testBit_div_two_pow,
    Nat.testBit_div_two_pow, BitVec.testBit_toNat]
  by_cases h1 : i < 32 * j
  · have : ¬(32 * j ≤ i ∧ i < 32 * j + 32) := by omega
    simp [h1, this]
  · by_cases h2 : i < 32 * j + 32
    · have h3 : i - 32 * j < 32 := by omega
      have h4 : 32 * j ≤ i := by omega
      simp [h1, h2, h3, h4]
    · have h3 : ¬ i - 32 * j < 32 := by omega
      have h4 : i - 32 * j - 32 + 32 + 32 * j = i := by omega
      simp [h1, h2, h3, h4]

/-- Read after write of an operand word, at the same word and at any other (20_memory.md R52). -/
theorem wordOf_withWord (v j i : Nat) (w : Word) :
    wordOf (withWord v j w) i = if i = j then w else wordOf v i := by
  apply BitVec.eq_of_getLsbD_eq
  intro b hb
  rw [wordOf_getLsbD, withWord_testBit]
  split
  · next h =>
    have : i = j := by omega
    subst this
    simp [hb]
  · next h =>
    have : i ≠ j := by omega
    simp [this, wordOf_getLsbD]

theorem withWord_lt {v j n : Nat} (w : Word) (hv : v < 2 ^ (32 * n)) (hj : j < n) :
    withWord v j w < 2 ^ (32 * n) := by
  apply Nat.lt_pow_two_of_testBit
  intro i hi
  rw [withWord_testBit, if_neg (by omega)]
  exact Nat.testBit_lt_two_pow (Nat.lt_of_lt_of_le hv (Nat.pow_le_pow_right (by omega) hi))

/-- A value is known by its words. -/
theorem eq_of_wordOf_eq {u v : Nat} (h : ∀ j, wordOf u j = wordOf v j) : u = v := by
  apply Nat.eq_of_testBit_eq
  intro i
  have h1 : (wordOf u (i / 32)).getLsbD (i % 32) = (wordOf v (i / 32)).getLsbD (i % 32) := by rw [h]
  have h2 : 32 * (i / 32) + i % 32 = i := Nat.div_add_mod i 32
  have h3 : i % 32 < 32 := Nat.mod_lt _ (by omega)
  rw [wordOf_getLsbD, wordOf_getLsbD, h2] at h1
  simpa [h3] using h1

theorem bitOf_le_one (v i : Nat) : bitOf v i = 0 ∨ bitOf v i = 1 := by
  have := bitOf_lt_two v i; omega

/-- Setting a bit keeps what lies above and below it. -/
theorem setBitNat_eq (v i : Nat) : setBitNat v i = v / 2 ^ i / 2 * 2 ^ i * 2 + 2 ^ i + v % 2 ^ i := by
  have h := split_at_bit v i
  unfold setBitNat
  rcases bitOf_le_one v i with e | e <;> simp only [e] at h ⊢ <;> omega

/-- Clearing a bit keeps what lies above and below it. -/
theorem clearBitNat_eq (v i : Nat) : clearBitNat v i = v / 2 ^ i / 2 * 2 ^ i * 2 + v % 2 ^ i := by
  have h := split_at_bit v i
  unfold clearBitNat
  rcases bitOf_le_one v i with e | e <;> simp only [e] at h ⊢ <;> omega

theorem testBit_split (h l i j : Nat) (b : Bool) (hl : l < 2 ^ i) :
    (h * 2 ^ i * 2 + b.toNat * 2 ^ i + l).testBit j =
      if j < i then l.testBit j else if j = i then b else h.testBit (j - i - 1) := by
  have e : h * 2 ^ i * 2 + b.toNat * 2 ^ i + l = 2 ^ i * (2 ^ 1 * h + b.toNat) + l := by
    rw [Nat.mul_add, Nat.mul_comm (2 ^ i) b.toNat, Nat.pow_one, Nat.mul_comm 2 h, ← Nat.mul_assoc,
      Nat.mul_comm (2 ^ i) h]
  rw [e, Nat.testBit_two_pow_mul_add _ hl,
    Nat.testBit_two_pow_mul_add _ (show b.toNat < 2 ^ 1 by cases b <;> decide)]
  by_cases h1 : j < i
  · simp [h1]
  · by_cases h2 : j = i
    · subst h2; cases b <;> simp
    · have : ¬ j - i < 1 := by omega
      simp [h1, h2, this]

/-- SETBIT sets bit i and no other (41_representation.md R103). -/
theorem setBitNat_testBit (v i j : Nat) : (setBitNat v i).testBit j = (decide (j = i) || v.testBit j) := by
  have h := testBit_split (v / 2 ^ i / 2) (v % 2 ^ i) i j true (Nat.mod_lt _ (Nat.two_pow_pos _))
  rw [setBitNat_eq]
  simp only [Bool.toNat_true, Nat.one_mul] at h
  rw [h, Nat.testBit_mod_two_pow]
  by_cases h1 : j < i
  · have : j ≠ i := by omega
    simp [h1, this]
  · by_cases h2 : j = i
    · simp [h2]
    · have e : v / 2 ^ i / 2 = v / 2 ^ (i + 1) := by rw [Nat.div_div_eq_div_mul, Nat.pow_succ]
      have : j - i - 1 + (i + 1) = j := by omega
      simp [h1, h2, e, Nat.testBit_div_two_pow, this]

/-- CLRBIT clears bit i and no other (41_representation.md R104). -/
theorem clearBitNat_testBit (v i j : Nat) :
    (clearBitNat v i).testBit j = (!decide (j = i) && v.testBit j) := by
  have h := testBit_split (v / 2 ^ i / 2) (v % 2 ^ i) i j false (Nat.mod_lt _ (Nat.two_pow_pos _))
  rw [clearBitNat_eq]
  simp only [Bool.toNat_false, Nat.zero_mul, Nat.add_zero] at h
  rw [h, Nat.testBit_mod_two_pow]
  by_cases h1 : j < i
  · have : j ≠ i := by omega
    simp [h1, this]
  · by_cases h2 : j = i
    · simp [h2]
    · have e : v / 2 ^ i / 2 = v / 2 ^ (i + 1) := by rw [Nat.div_div_eq_div_mul, Nat.pow_succ]
      have : j - i - 1 + (i + 1) = j := by omega
      simp [h1, h2, e, Nat.testBit_div_two_pow, this]

theorem setBitNat_lt {v i b : Nat} (hv : v < 2 ^ b) (hi : i < b) : setBitNat v i < 2 ^ b := by
  apply Nat.lt_pow_two_of_testBit
  intro j hj
  have h1 : v.testBit j = false :=
    Nat.testBit_lt_two_pow (Nat.lt_of_lt_of_le hv (Nat.pow_le_pow_right (by omega) hj))
  have h2 : j ≠ i := by omega
  simp [setBitNat_testBit, h1, h2]

theorem clearBitNat_le (v i : Nat) : clearBitNat v i ≤ v := Nat.sub_le _ _

end Sys2Proof.Machine
end

