-- ==== Sys2Proof/Laws/Arith.lean ====
section
/-! SUPPORT. What modular exponentiation, the extended Euclidean algorithm, inverses and the Montgomery
quantities compute. -/

namespace Sys2Proof.Machine

theorem powModAux_eq (n g : Nat) : ∀ fuel e : Nat, e < 2 ^ fuel → powModAux n g fuel e = g ^ e % n := by
  intro fuel
  induction fuel with
  | zero => intro e he; simp at he; subst he; rfl
  | succ fuel ih =>
    intro e he
    have hlt : e / 2 < 2 ^ fuel := by rw [Nat.pow_succ] at he; omega
    unfold powModAux
    split
    · next h => subst h; rfl
    · have hsq : g ^ (e / 2) % n * (g ^ (e / 2) % n) % n = g ^ (e / 2 + e / 2) % n := by
        rw [← Nat.mul_mod, Nat.pow_add]
      simp only [ih _ hlt, hsq]
      split
      · next h =>
        have : (e / 2 + e / 2).succ = e := by omega
        rw [Nat.mod_mul_mod, ← Nat.pow_succ, this]
      · next h =>
        have : e = e / 2 + e / 2 := by omega
        rw [← this]

/-- Modular exponentiation is the exact residue, with g^0 = 1 (47_exponentiation.md R190). -/
theorem powMod_eq (g e n : Nat) : powMod g e n = g ^ e % n := powModAux_eq n g _ _ (lt_two_pow_msb e)

/-- What the extended Euclidean loop keeps: the gcd of the remainder pair, and that each remainder is
congruent to a times its coefficient. -/
theorem eeaLoop_spec (a : Int) (b : Nat) : ∀ (fuel r0 r1 : Nat) (s0 s1 : Int), r1 < fuel →
    a * s0 ≡ r0 [ZMOD b] → a * s1 ≡ r1 [ZMOD b] →
    (eeaLoop fuel r0 r1 s0 s1).1 = Nat.gcd r0 r1 ∧
    a * (eeaLoop fuel r0 r1 s0 s1).2 ≡ Nat.gcd r0 r1 [ZMOD b] := by
  intro fuel
  induction fuel with
  | zero => intro r0 r1 s0 s1 h; omega
  | succ fuel ih =>
    intro r0 r1 s0 s1 hf h0 h1
    unfold eeaLoop
    split
    · next h => subst h; simpa using h0
    · next h =>
      have hr : r0 - r0 / r1 * r1 = r0 % r1 := by
        have := Nat.div_add_mod r0 r1; rw [Nat.mul_comm] at this; omega
      have hlt : r0 % r1 < r1 := Nat.mod_lt _ (Nat.pos_of_ne_zero h)
      rw [hr, show Nat.gcd r0 r1 = Nat.gcd r1 (r0 % r1) by
        rw [Nat.gcd_comm r1, ← Nat.gcd_rec, Nat.gcd_comm]]
      refine ih _ _ _ _ (by omega) h1 ?_
      have e : ((r0 % r1 : Nat) : Int) = r0 - (r0 / r1 : Nat) * r1 := by
        have := Nat.div_add_mod r0 r1
        have : (r1 : Int) * (r0 / r1 : Nat) + (r0 % r1 : Nat) = r0 := by exact_mod_cast this
        linarith
      rw [e]
      have := h0.sub (h1.mul_left ((r0 / r1 : Nat) : Int))
      convert this using 1; ring

/-- The gcd output of the extended Euclidean algorithm (48_gcd_inversion.md R202). -/
theorem eea_gcd (a b : Nat) : (eea a b).1 = Nat.gcd a b :=
  (eeaLoop_spec a b (b + 1) a b 1 0 (by omega) (by simp [Int.ModEq]) (by simp [Int.ModEq])).1

/-- The coefficient output is reduced (48_gcd_inversion.md R202). -/
theorem eea_lt {a b : Nat} (hb : b ≠ 0) : (eea a b).2 < b := by
  have h := Int.emod_lt_of_pos (eeaLoop (b + 1) a b 1 0).2 (show (0 : Int) < b by omega)
  have h' := Int.emod_nonneg (eeaLoop (b + 1) a b 1 0).2 (show (b : Int) ≠ 0 by omega)
  show (Int.toNat _) < b
  omega

/-- The coefficient satisfies a · x ≡ gcd(a, b) modulo b (48_gcd_inversion.md R202). -/
theorem eea_congr {a b : Nat} (hb : b ≠ 0) : a * (eea a b).2 % b = Nat.gcd a b % b := by
  have h := (eeaLoop_spec a b (b + 1) a b 1 0 (by omega) (by simp [Int.ModEq]) (by simp [Int.ModEq])).2
  have h' := Int.emod_nonneg (eeaLoop (b + 1) a b 1 0).2 (show (b : Int) ≠ 0 by omega)
  have e : ((eea a b).2 : Int) = (eeaLoop (b + 1) a b 1 0).2 % b := Int.toNat_of_nonneg h'
  have g : (a : Int) * ((eea a b).2 : Int) ≡ (Nat.gcd a b : Nat) [ZMOD b] := by
    rw [e]; exact ((Int.mod_modEq _ _).mul_left _).trans h
  exact_mod_cast g

theorem invMod_lt {a n : Nat} (hn : n ≠ 0) : invMod a n < n := eea_lt hn

/-- The inverse of a unit (00_scope.md R12). -/
theorem invMod_mul {a n : Nat} (hn : n ≠ 0) (h : Nat.gcd a n = 1) : a * invMod a n % n = 1 % n := by
  rw [invMod, eea_congr hn, h]

/-- There is one inverse in [0, n) (00_scope.md R12). -/
theorem invMod_unique {a n y : Nat} (h : Nat.gcd a n = 1) (hy : y < n) (e : a * y % n = 1 % n) :
    y = invMod a n := by
  have hn : n ≠ 0 := by omega
  have h1 : a * y ≡ a * invMod a n [MOD n] := by rw [Nat.ModEq, e, invMod_mul hn h]
  have h2 := Nat.ModEq.cancel_left_of_coprime (by rw [Nat.gcd_comm]; exact h) h1
  exact Nat.ModEq.eq_of_lt_of_lt h2 hy (invMod_lt hn)

theorem radix_pos (n : Nat) : 0 < radix n := Nat.two_pow_pos _

/-- The radix exceeds the modulus (00_scope.md R14). -/
theorem lt_radix (n : Nat) : n < radix n := lt_two_pow_ulen n

theorem coprime_two_pow {n : Nat} (h : n % 2 = 1) (m : Nat) : Nat.gcd n (2 ^ m) = 1 :=
  Nat.Coprime.pow_right _ (Nat.coprime_two_right.2 (Nat.odd_iff.2 h))

/-- The modulus prime for a radix 2^m satisfies n · n' ≡ −1 (46_montgomery.md R170, R171). -/
theorem modulusPrime_spec {n m : Nat} (h : n % 2 = 1) (hm : m ≠ 0) :
    modulusPrime n (2 ^ m) < 2 ^ m ∧ (n * modulusPrime n (2 ^ m) + 1) % 2 ^ m = 0 := by
  have hr : 2 ^ m ≠ 0 := by positivity
  have h1 : 1 < 2 ^ m := Nat.one_lt_two_pow hm
  refine ⟨Nat.mod_lt _ (by omega), ?_⟩
  have hg : Nat.gcd (n % 2 ^ m) (2 ^ m) = 1 := by
    rw [← Nat.gcd_rec, Nat.gcd_comm]; exact coprime_two_pow h m
  have hi := invMod_mul hr hg
  have hl := invMod_lt (a := n % 2 ^ m) hr
  have hi' : n * invMod (n % 2 ^ m) (2 ^ m) % 2 ^ m = 1 := by
    rw [Nat.mod_mul_mod, Nat.mod_eq_of_lt h1] at hi; exact hi
  have hz : (n * (2 ^ m - invMod (n % 2 ^ m) (2 ^ m)) + 1) % 2 ^ m = 0 := by
    generalize invMod (n % 2 ^ m) (2 ^ m) = i at *
    have e : n * (2 ^ m - i) + n * i = 2 ^ m * n := by
      rw [← Nat.mul_add, Nat.sub_add_cancel (Nat.le_of_lt hl), Nat.mul_comm]
    have : (n * (2 ^ m - i) + 1) % 2 ^ m = (n * (2 ^ m - i) + n * i) % 2 ^ m := by
      rw [Nat.add_mod, Nat.add_mod _ (n * i), hi', Nat.mod_eq_of_lt h1]
    rw [this, e, Nat.mul_mod_right]
  rw [modulusPrime, Nat.add_mod, Nat.mul_mod_mod, ← Nat.add_mod]
  exact hz

theorem mul_invMod_radix {n t : Nat} (h : n % 2 = 1) :
    t * invMod (radix n) n % n * radix n % n = t % n := by
  have hn : n ≠ 0 := by rintro rfl; simp at h
  have hi := invMod_mul hn (show Nat.gcd (radix n) n = 1 by rw [Nat.gcd_comm]; exact coprime_two_pow h _)
  rw [Nat.mod_mul_mod, Nat.mul_assoc, Nat.mul_comm (invMod _ _), Nat.mul_mod, hi, ← Nat.mul_mod, Nat.mul_one]

/-- REDC gives the reduced value whose product with R is T modulo n (46_montgomery.md R173). -/
theorem redc_spec {t n : Nat} (h : n % 2 = 1) : redc t n < n ∧ redc t n * radix n % n = t % n :=
  ⟨Nat.mod_lt _ (by omega), mul_invMod_radix h⟩

/-- The Montgomery product (00_scope.md R14). -/
theorem montPro_spec {a b n : Nat} (h : n % 2 = 1) :
    montPro a b n < n ∧ montPro a b n * radix n % n = a * b % n :=
  ⟨Nat.mod_lt _ (by omega), mul_invMod_radix h⟩

end Sys2Proof.Machine
end

