-- ==== Sys2Proof/Laws/ByteBuffer.lean ====
section
/-! SUPPORT. What the byte-buffer convention computes, said once (20_memory.md R60, R61). -/

namespace Sys2Proof.Machine

/-- The step of the value: a byte appended at the end is the new least significant one. -/
theorem valueOfBytesBE_concat (bytes : List Byte) (b : Byte) :
    valueOfBytesBE (bytes ++ [b]) = 256 * valueOfBytesBE bytes + b.toNat := by
  simp [valueOfBytesBE]

@[simp] theorem valueOfBytesBE_nil : valueOfBytesBE [] = 0 := rfl

/-- L bytes hold a value below 2^(8·L). -/
theorem valueOfBytesBE_lt (bytes : List Byte) : valueOfBytesBE bytes < 2 ^ (8 * bytes.length) := by
  induction bytes using List.reverseRecOn with
  | nil => simp
  | append_singleton bytes b ih =>
    have hb := b.isLt
    rw [valueOfBytesBE_concat, List.length_append, List.length_singleton, Nat.mul_add, pow_add]
    omega

@[simp] theorem length_bytesBE (v len : Nat) : (bytesBE v len).length = len := by simp [bytesBE]

/-- Byte i of the L bytes is v[8·(L−1−i)+7 : 8·(L−1−i)]. -/
theorem toNat_getElem_bytesBE (v len i : Nat) (h : i < (bytesBE v len).length) :
    (bytesBE v len)[i].toNat = bits v (8 * (len - 1 - i)) 8 := by
  simp [bytesBE, bits]

end Sys2Proof.Machine
end

