-- ==== Sys2Proof/Laws/State.lean ====
section
/-! SUPPORT. One lemma per field per update of the state, true by unfolding the update, and how a register
reads after an update. -/

namespace Sys2Proof.Machine

variable (s : State)

@[simp] theorem State.setReg_kWords (i : Reg) (v : Nat) : (s.setReg i v).kWords = s.kWords := rfl
@[simp] theorem State.setReg_base (i : Reg) (v : Nat) : (s.setReg i v).base = s.base := rfl
@[simp] theorem State.setReg_cmd (i : Reg) (v : Nat) : (s.setReg i v).cmd = s.cmd := rfl
@[simp] theorem State.setReg_arg (i : Reg) (v : Nat) : (s.setReg i v).arg = s.arg := rfl
@[simp] theorem State.setReg_res (i : Reg) (v : Nat) : (s.setReg i v).res = s.res := rfl
@[simp] theorem State.setReg_busy (i : Reg) (v : Nat) : (s.setReg i v).busy = s.busy := rfl
@[simp] theorem State.setReg_c (i : Reg) (v : Nat) : (s.setReg i v).c = s.c := rfl
@[simp] theorem State.setReg_anyErr (i : Reg) (v : Nat) : (s.setReg i v).anyErr = s.anyErr := rfl
@[simp] theorem State.setReg_ovr (i : Reg) (v : Nat) : (s.setReg i v).ovr = s.ovr := rfl
@[simp] theorem State.setReg_err (i : Reg) (v : Nat) : (s.setReg i v).err = s.err := rfl
@[simp] theorem State.setReg_pend (i : Reg) (v : Nat) : (s.setReg i v).pend = s.pend := rfl
@[simp] theorem State.setReg_turns (i : Reg) (v : Nat) : (s.setReg i v).turns = s.turns := rfl
@[simp] theorem State.setReg_readData (i : Reg) (v : Nat) : (s.setReg i v).readData = s.readData := rfl
@[simp] theorem State.setReg_freeCount (i : Reg) (v : Nat) : (s.setReg i v).freeCount = s.freeCount := rfl

@[simp] theorem State.setRes_kWords (w : Word) : (s.setRes w).kWords = s.kWords := rfl
@[simp] theorem State.setRes_base (w : Word) : (s.setRes w).base = s.base := rfl
@[simp] theorem State.setRes_x (w : Word) : (s.setRes w).x = s.x := rfl
@[simp] theorem State.setRes_cmd (w : Word) : (s.setRes w).cmd = s.cmd := rfl
@[simp] theorem State.setRes_arg (w : Word) : (s.setRes w).arg = s.arg := rfl
@[simp] theorem State.setRes_res (w : Word) : (s.setRes w).res = w := rfl
@[simp] theorem State.setRes_busy (w : Word) : (s.setRes w).busy = s.busy := rfl
@[simp] theorem State.setRes_c (w : Word) : (s.setRes w).c = s.c := rfl
@[simp] theorem State.setRes_anyErr (w : Word) : (s.setRes w).anyErr = s.anyErr := rfl
@[simp] theorem State.setRes_ovr (w : Word) : (s.setRes w).ovr = s.ovr := rfl
@[simp] theorem State.setRes_err (w : Word) : (s.setRes w).err = s.err := rfl
@[simp] theorem State.setRes_pend (w : Word) : (s.setRes w).pend = s.pend := rfl
@[simp] theorem State.setRes_turns (w : Word) : (s.setRes w).turns = s.turns := rfl
@[simp] theorem State.setRes_readData (w : Word) : (s.setRes w).readData = s.readData := rfl
@[simp] theorem State.setRes_freeCount (w : Word) : (s.setRes w).freeCount = s.freeCount := rfl

@[simp] theorem State.setC_kWords (b : Bool) : (s.setC b).kWords = s.kWords := rfl
@[simp] theorem State.setC_base (b : Bool) : (s.setC b).base = s.base := rfl
@[simp] theorem State.setC_x (b : Bool) : (s.setC b).x = s.x := rfl
@[simp] theorem State.setC_cmd (b : Bool) : (s.setC b).cmd = s.cmd := rfl
@[simp] theorem State.setC_arg (b : Bool) : (s.setC b).arg = s.arg := rfl
@[simp] theorem State.setC_res (b : Bool) : (s.setC b).res = s.res := rfl
@[simp] theorem State.setC_busy (b : Bool) : (s.setC b).busy = s.busy := rfl
@[simp] theorem State.setC_c (b : Bool) : (s.setC b).c = b := rfl
@[simp] theorem State.setC_anyErr (b : Bool) : (s.setC b).anyErr = s.anyErr := rfl
@[simp] theorem State.setC_ovr (b : Bool) : (s.setC b).ovr = s.ovr := rfl
@[simp] theorem State.setC_err (b : Bool) : (s.setC b).err = s.err := rfl
@[simp] theorem State.setC_pend (b : Bool) : (s.setC b).pend = s.pend := rfl
@[simp] theorem State.setC_turns (b : Bool) : (s.setC b).turns = s.turns := rfl
@[simp] theorem State.setC_readData (b : Bool) : (s.setC b).readData = s.readData := rfl
@[simp] theorem State.setC_freeCount (b : Bool) : (s.setC b).freeCount = s.freeCount := rfl

@[simp] theorem State.useFree_kWords : (s.useFree).kWords = s.kWords := rfl
@[simp] theorem State.useFree_base : (s.useFree).base = s.base := rfl
@[simp] theorem State.useFree_x : (s.useFree).x = s.x := rfl
@[simp] theorem State.useFree_cmd : (s.useFree).cmd = s.cmd := rfl
@[simp] theorem State.useFree_arg : (s.useFree).arg = s.arg := rfl
@[simp] theorem State.useFree_res : (s.useFree).res = s.res := rfl
@[simp] theorem State.useFree_busy : (s.useFree).busy = s.busy := rfl
@[simp] theorem State.useFree_c : (s.useFree).c = s.c := rfl
@[simp] theorem State.useFree_anyErr : (s.useFree).anyErr = s.anyErr := rfl
@[simp] theorem State.useFree_ovr : (s.useFree).ovr = s.ovr := rfl
@[simp] theorem State.useFree_err : (s.useFree).err = s.err := rfl
@[simp] theorem State.useFree_pend : (s.useFree).pend = s.pend := rfl
@[simp] theorem State.useFree_turns : (s.useFree).turns = s.turns := rfl
@[simp] theorem State.useFree_readData : (s.useFree).readData = s.readData := rfl
@[simp] theorem State.useFree_freeCount : (s.useFree).freeCount = s.freeCount + 1 := rfl

@[simp] theorem State.accept_kWords (w : Word) : (s.accept w).kWords = s.kWords := rfl
@[simp] theorem State.accept_base (w : Word) : (s.accept w).base = s.base := rfl
@[simp] theorem State.accept_x (w : Word) : (s.accept w).x = s.x := rfl
@[simp] theorem State.accept_cmd (w : Word) : (s.accept w).cmd = w := rfl
@[simp] theorem State.accept_arg (w : Word) : (s.accept w).arg = s.arg := rfl
@[simp] theorem State.accept_res (w : Word) : (s.accept w).res = s.res := rfl
@[simp] theorem State.accept_busy (w : Word) : (s.accept w).busy = true := rfl
@[simp] theorem State.accept_c (w : Word) : (s.accept w).c = s.c := rfl
@[simp] theorem State.accept_anyErr (w : Word) : (s.accept w).anyErr = s.anyErr := rfl
@[simp] theorem State.accept_ovr (w : Word) : (s.accept w).ovr = s.ovr := rfl
@[simp] theorem State.accept_err (w : Word) : (s.accept w).err = s.err := rfl
@[simp] theorem State.accept_pend (w : Word) : (s.accept w).pend = some { word := w, arg := s.arg } := rfl
@[simp] theorem State.accept_turns (w : Word) : (s.accept w).turns = s.turns := rfl
@[simp] theorem State.accept_readData (w : Word) : (s.accept w).readData = s.readData := rfl
@[simp] theorem State.accept_freeCount (w : Word) : (s.accept w).freeCount = s.freeCount := rfl

@[simp] theorem State.complete_kWords (e : ErrCode) : (s.complete e).kWords = s.kWords := rfl
@[simp] theorem State.complete_base (e : ErrCode) : (s.complete e).base = s.base := rfl
@[simp] theorem State.complete_x (e : ErrCode) : (s.complete e).x = s.x := rfl
@[simp] theorem State.complete_cmd (e : ErrCode) : (s.complete e).cmd = s.cmd := rfl
@[simp] theorem State.complete_arg (e : ErrCode) : (s.complete e).arg = s.arg := rfl
@[simp] theorem State.complete_res (e : ErrCode) : (s.complete e).res = s.res := rfl
@[simp] theorem State.complete_busy (e : ErrCode) : (s.complete e).busy = false := rfl
@[simp] theorem State.complete_c (e : ErrCode) : (s.complete e).c = s.c := rfl
@[simp] theorem State.complete_anyErr (e : ErrCode) : (s.complete e).anyErr = (s.anyErr || decide (e ≠ .ok)) := rfl
@[simp] theorem State.complete_ovr (e : ErrCode) : (s.complete e).ovr = s.ovr := rfl
@[simp] theorem State.complete_err (e : ErrCode) : (s.complete e).err = e := rfl
@[simp] theorem State.complete_pend (e : ErrCode) : (s.complete e).pend = none := rfl
@[simp] theorem State.complete_turns (e : ErrCode) : (s.complete e).turns = s.turns := rfl
@[simp] theorem State.complete_readData (e : ErrCode) : (s.complete e).readData = s.readData := rfl
@[simp] theorem State.complete_freeCount (e : ErrCode) : (s.complete e).freeCount = s.freeCount := rfl

@[simp] theorem State.resetEngine_kWords : (s.resetEngine).kWords = s.kWords := rfl
@[simp] theorem State.resetEngine_base : (s.resetEngine).base = s.base := rfl
@[simp] theorem State.resetEngine_x : (s.resetEngine).x = Vector.replicate 16 0 := rfl
@[simp] theorem State.resetEngine_cmd : (s.resetEngine).cmd = 0 := rfl
@[simp] theorem State.resetEngine_arg : (s.resetEngine).arg = 0 := rfl
@[simp] theorem State.resetEngine_res : (s.resetEngine).res = 0 := rfl
@[simp] theorem State.resetEngine_busy : (s.resetEngine).busy = false := rfl
@[simp] theorem State.resetEngine_c : (s.resetEngine).c = false := rfl
@[simp] theorem State.resetEngine_anyErr : (s.resetEngine).anyErr = false := rfl
@[simp] theorem State.resetEngine_ovr : (s.resetEngine).ovr = false := rfl
@[simp] theorem State.resetEngine_err : (s.resetEngine).err = .ok := rfl
@[simp] theorem State.resetEngine_pend : (s.resetEngine).pend = none := rfl
@[simp] theorem State.resetEngine_turns : (s.resetEngine).turns = s.turns := rfl
@[simp] theorem State.resetEngine_readData : (s.resetEngine).readData = s.readData := rfl
@[simp] theorem State.resetEngine_freeCount : (s.resetEngine).freeCount = s.freeCount := rfl

@[simp] theorem State.setRes_reg (w : Word) (r : Reg) : (s.setRes w).reg r = s.reg r := rfl
@[simp] theorem State.setC_reg (b : Bool) (r : Reg) : (s.setC b).reg r = s.reg r := rfl
@[simp] theorem State.useFree_reg (r : Reg) : (s.useFree).reg r = s.reg r := rfl
@[simp] theorem State.accept_reg (w : Word) (r : Reg) : (s.accept w).reg r = s.reg r := rfl
@[simp] theorem State.complete_reg (e : ErrCode) (r : Reg) : (s.complete e).reg r = s.reg r := rfl
@[simp] theorem State.resetEngine_reg (r : Reg) : (s.resetEngine).reg r = 0 := by
  simp [State.reg]

/-- A register reads what was last written to it, and a write leaves every other register alone. -/
theorem State.setReg_reg (i : Reg) (v : Nat) (r : Reg) :
    (s.setReg i v).reg r = if r = i then v else s.reg r := by
  by_cases h : r = i
  · subst h; simp [State.reg, State.setReg]
  · have : (i : Nat) ≠ (r : Nat) := fun e => h (Fin.ext e.symm)
    simp [State.reg, State.setReg, h, this]

@[simp] theorem State.setReg_reg_same (i : Reg) (v : Nat) : (s.setReg i v).reg i = v := by
  simp [State.setReg_reg]

@[simp] theorem State.setReg_reg_ne {i r : Reg} (v : Nat) (h : r ≠ i) : (s.setReg i v).reg r = s.reg r := by
  simp [State.setReg_reg, h]

end Sys2Proof.Machine
end

