-- ==== Sys2Proof/Laws/Ops.lean ====
section
/-! SUPPORT. What the shared operations of a command can do, said once. -/

namespace Sys2Proof.Machine

@[simp] theorem errIf_true (e : ErrCode) : errIf true e = some e := rfl
@[simp] theorem errIf_false (e : ErrCode) : errIf false e = none := rfl

theorem errIf_eq_none {p : Bool} {e : ErrCode} : errIf p e = none ↔ p = false := by
  cases p <;> simp

theorem errIf_eq_some {p : Bool} {e e' : ErrCode} : errIf p e = some e' ↔ p = true ∧ e = e' := by
  cases p <;> simp

@[simp] theorem firstErr_nil : firstErr [] = none := rfl
@[simp] theorem firstErr_some (e : ErrCode) (l : List (Option ErrCode)) : firstErr (some e :: l) = some e := rfl
@[simp] theorem firstErr_none (l : List (Option ErrCode)) : firstErr (none :: l) = firstErr l := rfl

/-- No check of a list fails exactly when each passes. -/
theorem firstErr_eq_none {l : List (Option ErrCode)} : firstErr l = none ↔ ∀ c ∈ l, c = none := by
  induction l with
  | nil => simp
  | cons c l ih => cases c <;> simp [ih]

/-- A raised error is that of one of the checks. -/
theorem firstErr_mem {l : List (Option ErrCode)} {e : ErrCode} (h : firstErr l = some e) : some e ∈ l := by
  induction l with
  | nil => simp at h
  | cons c l ih => cases c <;> simp_all

/-- ModCheck passes exactly when n is not 0, has at most K words, and is odd where it must be. -/
theorem modCheck_eq_none {k n : Nat} {b : Bool} :
    modCheck k n b = none ↔ n ≠ 0 ∧ ulen n ≤ k ∧ (b = true → n % 2 = 1) := by
  have h2 : n % 2 = 0 ∨ n % 2 = 1 := by omega
  cases b <;> rcases h2 with h2 | h2 <;>
    simp [modCheck, firstErr_eq_none, errIf_eq_none, bitOf, h2]

/-- RangeCheck passes exactly when v is below n. -/
theorem rangeCheck_eq_none {v n : Nat} : rangeCheck v n = none ↔ v < n := by
  simp [rangeCheck, errIf_eq_none]

theorem aliasCheck_eq_none {d e : Reg} : aliasCheck d e = none ↔ d ≠ e := by
  simp [aliasCheck, errIf_eq_none]

theorem zeroCheck_eq_none {v : Nat} : zeroCheck v = none ↔ v ≠ 0 := by
  simp [zeroCheck, errIf_eq_none]

theorem bitIndexCheck_eq_none {k i : Nat} : bitIndexCheck k i = none ↔ i < registerBits k := by
  simp [bitIndexCheck, errIf_eq_none]

/-- Everything a checked command can do: an error of its checks in the state before it, or its results. -/
theorem checked_cases (c : Option ErrCode) (s results : State) :
    (∃ e, c = some e ∧ checked c s results = .next (s.complete e)) ∨
    (c = none ∧ checked c s results = .next (results.complete .ok)) := by
  cases c with
  | none => exact .inr ⟨rfl, rfl⟩
  | some e => exact .inl ⟨e, rfl, rfl⟩

@[simp] theorem checked_none (s results : State) : checked none s results = .next (results.complete .ok) := rfl
@[simp] theorem checked_some (e : ErrCode) (s results : State) :
    checked (some e) s results = .next (s.complete e) := rfl
@[simp] theorem succeed_eq (results : State) : succeed results = .next (results.complete .ok) := rfl
@[simp] theorem raiseErr_eq (e : ErrCode) (s : State) : raiseErr e s = .next (s.complete e) := rfl

@[simp] theorem scalar_of_pending {s : State} {p : Pending} (h : s.pend = some p) : s.scalar = p.arg.toNat := by
  simp [State.scalar, h]

@[simp] theorem accept_scalar (s : State) (w : Word) : (s.accept w).scalar = s.arg.toNat := rfl

theorem scalar_lt (s : State) : s.scalar < 2 ^ 32 := by
  unfold State.scalar
  split
  · exact BitVec.isLt _
  · exact BitVec.isLt _

theorem freeRegValue_lt (s : State) : s.freeRegValue < registerLimit s.kWords :=
  Nat.mod_lt _ (Nat.two_pow_pos _)

end Sys2Proof.Machine
end

