-- ==== Sys2Proof/Laws/Poly.lean ====
section
/-! SUPPORT. The algebra of binary polynomials held as natural numbers: the carry-less product is a
commutative, associative product that distributes over ⊕, division has the one quotient and remainder,
and the extended Euclidean algorithm gives the gcd and the inverse of a unit. -/

namespace Sys2Proof.Machine

/-! ### The carry-less product -/

@[simp] theorem clmulBits_zero (a b : Nat) : clmulBits a b 0 = 0 := rfl

theorem clmulBits_succ (a b n : Nat) :
    clmulBits a b (n + 1) = clmulBits a b n ^^^ (if b.testBit n then a <<< n else 0) := rfl

theorem clmulBits_stable (a b : Nat) {n : Nat} (h : msb b ≤ n) : clmulBits a b n = clmul a b := by
  induction n with
  | zero => rw [clmul, Nat.le_zero.1 h]
  | succ n ih =>
    rcases Nat.lt_or_ge n (msb b) with h1 | h1
    · rw [clmul, show msb b = n + 1 by omega]
    · rw [clmulBits_succ, testBit_of_msb_le h1, ih h1]; simp

theorem xor_xor_xor_comm (a b c d : Nat) : (a ^^^ b) ^^^ (c ^^^ d) = (a ^^^ c) ^^^ (b ^^^ d) := by
  apply Nat.eq_of_testBit_eq; intro i; simp only [Nat.testBit_xor]
  cases a.testBit i <;> cases b.testBit i <;> cases c.testBit i <;> cases d.testBit i <;> rfl

theorem clmulBits_xor_left (a a' b n : Nat) :
    clmulBits (a ^^^ a') b n = clmulBits a b n ^^^ clmulBits a' b n := by
  induction n with
  | zero => simp
  | succ n ih =>
    rw [clmulBits_succ, clmulBits_succ, clmulBits_succ, ih, xor_xor_xor_comm]
    cases b.testBit n <;> simp [Nat.shiftLeft_xor_distrib]

theorem clmulBits_xor_right (a b b' n : Nat) :
    clmulBits a (b ^^^ b') n = clmulBits a b n ^^^ clmulBits a b' n := by
  induction n with
  | zero => simp
  | succ n ih =>
    rw [clmulBits_succ, clmulBits_succ, clmulBits_succ, ih, xor_xor_xor_comm, Nat.testBit_xor]
    cases b.testBit n <;> cases b'.testBit n <;> simp

theorem clmul_xor_left (a a' b : Nat) : clmul (a ^^^ a') b = clmul a b ^^^ clmul a' b :=
  clmulBits_xor_left a a' b _

theorem clmul_xor_right (a b b' : Nat) : clmul a (b ^^^ b') = clmul a b ^^^ clmul a b' := by
  let n := max (msb (b ^^^ b')) (max (msb b) (msb b'))
  rw [← clmulBits_stable a (b ^^^ b') (n := n) (by omega), ← clmulBits_stable a b (n := n) (by omega),
    ← clmulBits_stable a b' (n := n) (by omega)]
  exact clmulBits_xor_right a b b' n

@[simp] theorem clmul_zero_right (a : Nat) : clmul a 0 = 0 := rfl

@[simp] theorem clmul_zero_left (b : Nat) : clmul 0 b = 0 := by
  rw [clmul]
  induction msb b with
  | zero => rfl
  | succ n ih => rw [clmulBits_succ, ih]; simp

theorem clmulBits_shift_low (a b s : Nat) {n : Nat} (h : n ≤ s) : clmulBits a (b <<< s) n = 0 := by
  induction n with
  | zero => rfl
  | succ n ih =>
    rw [clmulBits_succ, ih (by omega), Nat.testBit_shiftLeft]
    have : ¬ s ≤ n := by omega
    simp [this]

theorem clmulBits_shift_right (a b s n : Nat) :
    clmulBits a (b <<< s) (s + n) = clmulBits a b n <<< s := by
  induction n with
  | zero => rw [Nat.add_zero, clmulBits_shift_low a b s (Nat.le_refl s)]; simp
  | succ n ih =>
    rw [← Nat.add_assoc, clmulBits_succ, ih, clmulBits_succ, Nat.shiftLeft_xor_distrib, Nat.testBit_shiftLeft]
    have h1 : s ≤ s + n := by omega
    have h2 : s + n - s = n := by omega
    simp only [h1, h2, decide_true, Bool.true_and]
    cases b.testBit n
    · simp
    · simp [Nat.add_comm s n, Nat.shiftLeft_add]

theorem clmul_shift_right (a b s : Nat) : clmul a (b <<< s) = clmul a b <<< s := by
  rw [← clmulBits_stable a (b <<< s) (n := s + (msb (b <<< s) + msb b)) (by omega), clmulBits_shift_right,
    clmulBits_stable a b (by omega)]

theorem clmul_one_right (a : Nat) : clmul a 1 = a := by
  show clmulBits a 1 1 = a
  simp [clmulBits_succ]

theorem clmul_two_pow_right (a s : Nat) : clmul a (1 <<< s) = a <<< s := by
  rw [clmul_shift_right, clmul_one_right]

/-- A value's low bits, with the next one. -/
theorem mod_two_pow_succ_xor (b n : Nat) : b % 2 ^ (n + 1) = b % 2 ^ n ^^^ (if b.testBit n then 1 <<< n else 0) := by
  apply Nat.eq_of_testBit_eq
  intro i
  have e : (if b.testBit n then 1 <<< n else 0 : Nat).testBit i = (b.testBit n && decide (i = n)) := by
    cases hb : b.testBit n
    · simp
    · rw [if_pos rfl, Nat.one_shiftLeft, Nat.testBit_two_pow]; simp [eq_comm]
  rw [Nat.testBit_xor, Nat.testBit_mod_two_pow, Nat.testBit_mod_two_pow, e]
  rcases Nat.lt_trichotomy i n with h | h | h
  · have h1 : i < n + 1 := by omega
    have h2 : i ≠ n := by omega
    simp [h, h1, h2]
  · subst h; simp
  · have h1 : ¬ i < n + 1 := by omega
    have h2 : ¬ i < n := by omega
    have h3 : i ≠ n := by omega
    simp [h1, h2, h3]

theorem clmul_two_pow_left (b s : Nat) : clmul (1 <<< s) b = b <<< s := by
  have h : ∀ n, clmulBits (1 <<< s) b n = (b % 2 ^ n) <<< s := by
    intro n
    induction n with
    | zero => simp [Nat.mod_one]
    | succ n ih =>
      rw [clmulBits_succ, ih, mod_two_pow_succ_xor, Nat.shiftLeft_xor_distrib]
      cases b.testBit n
      · simp
      · simp [← Nat.shiftLeft_add, Nat.add_comm]
  rw [clmul, h, Nat.mod_eq_of_lt (lt_two_pow_msb b)]

/-- The carry-less product is commutative. -/
theorem clmul_comm (a b : Nat) : clmul a b = clmul b a := by
  have h : ∀ n, clmulBits a b n = clmul (b % 2 ^ n) a := by
    intro n
    induction n with
    | zero => simp [Nat.mod_one]
    | succ n ih =>
      rw [clmulBits_succ, ih, mod_two_pow_succ_xor, clmul_xor_left]
      cases b.testBit n
      · simp
      · simp [clmul_two_pow_left]
  rw [clmul, h, Nat.mod_eq_of_lt (lt_two_pow_msb b)]

/-- The carry-less product is associative. -/
theorem clmul_assoc (a b c : Nat) : clmul (clmul a b) c = clmul a (clmul b c) := by
  have h : ∀ n, clmulBits (clmul a b) c n = clmul a (clmulBits b c n) := by
    intro n
    induction n with
    | zero => simp
    | succ n ih =>
      rw [clmulBits_succ, ih, clmulBits_succ, clmul_xor_right]
      cases c.testBit n
      · simp
      · simp [clmul_shift_right]
  rw [clmul, h]; rfl

theorem clmul_one_left (a : Nat) : clmul 1 a = a := by rw [clmul_comm, clmul_one_right]

/-! ### Bit lengths -/

theorem msb_xor_le {a b n : Nat} (ha : msb a ≤ n) (hb : msb b ≤ n) : msb (a ^^^ b) ≤ n :=
  msb_le_iff.2 (Nat.xor_lt_two_pow (msb_le_iff.1 ha) (msb_le_iff.1 hb))

theorem msb_shiftLeft_le (a s : Nat) : msb (a <<< s) ≤ msb a + s := by
  rw [msb_le_iff, Nat.shiftLeft_eq, Nat.pow_add]
  exact Nat.mul_lt_mul_of_pos_right (lt_two_pow_msb a) (Nat.two_pow_pos s)

theorem msb_clmulBits_le (a b : Nat) : ∀ n, msb (clmulBits a b n) ≤ msb a + n - 1 := by
  intro n
  induction n with
  | zero => simp
  | succ n ih =>
    rw [clmulBits_succ]
    refine msb_xor_le (by omega) ?_
    cases b.testBit n
    · simp
    · have := msb_shiftLeft_le a n; simp; omega

/-- The degree of a product (00_scope.md R13): msb(a·b) = msb(a) + msb(b) − 1 for non-zero a and b. -/
theorem msb_clmul {a b : Nat} (ha : a ≠ 0) (hb : b ≠ 0) : msb (clmul a b) = msb a + msb b - 1 := by
  have pa := msb_pos ha
  have pb := msb_pos hb
  refine Nat.le_antisymm (msb_clmulBits_le a b _) ?_
  have e : clmul a b = clmulBits a b (msb b - 1) ^^^ a <<< (msb b - 1) := by
    conv => lhs; rw [clmul, show msb b = (msb b - 1) + 1 by omega]
    rw [clmulBits_succ, if_pos (testBit_msb_pred hb)]
  have ht : (clmul a b).testBit (msb a - 1 + (msb b - 1)) = true := by
    rw [e, Nat.testBit_xor, testBit_of_msb_le, Nat.testBit_shiftLeft]
    · have : msb b - 1 ≤ msb a - 1 + (msb b - 1) := by omega
      have e2 : msb a - 1 + (msb b - 1) - (msb b - 1) = msb a - 1 := by omega
      simp only [this, decide_true, Bool.true_and, e2, testBit_msb_pred ha, Bool.false_bne]
    · have := msb_clmulBits_le a b (msb b - 1); omega
  by_contra hlt
  rw [testBit_of_msb_le (by omega)] at ht
  exact Bool.noConfusion ht

theorem msb_clmul_le (a b : Nat) : msb (clmul a b) ≤ msb a + msb b - 1 := msb_clmulBits_le a b _

theorem clmul_eq_zero {a b : Nat} : clmul a b = 0 ↔ a = 0 ∨ b = 0 := by
  constructor
  · intro h
    by_contra hn
    rw [not_or] at hn
    have h1 := msb_clmul hn.1 hn.2
    have h2 := msb_pos hn.1
    have h3 := msb_pos hn.2
    rw [h, msb_zero] at h1
    omega
  · rintro (rfl | rfl) <;> simp

/-! ### Division -/

theorem msb_align_lt {a b : Nat} (hb : b ≠ 0) (h : msb b ≤ msb a) :
    msb (a ^^^ b <<< (msb a - msb b)) < msb a := by
  have pb := msb_pos hb
  have ha : a ≠ 0 := by rintro rfl; simp at h; omega
  suffices msb (a ^^^ b <<< (msb a - msb b)) ≤ msb a - 1 by omega
  apply msb_le_of_testBit
  intro i hi
  rw [Nat.testBit_xor, Nat.testBit_shiftLeft]
  rcases Nat.eq_or_lt_of_le hi with h1 | h1
  · subst h1
    have e : msb a - 1 - (msb a - msb b) = msb b - 1 := by omega
    have e2 : msb a - msb b ≤ msb a - 1 := by omega
    simp [e, e2, testBit_msb_pred ha, testBit_msb_pred hb]
  · rw [testBit_of_msb_le (by omega), testBit_of_msb_le (v := b) (by omega)]
    simp

theorem pdivLoop_spec {b : Nat} (hb : b ≠ 0) : ∀ (fuel q a : Nat), msb a ≤ fuel →
    clmul (pdivLoop b fuel q a).1 b ^^^ (pdivLoop b fuel q a).2 = clmul q b ^^^ a ∧
    msb (pdivLoop b fuel q a).2 < msb b := by
  intro fuel
  induction fuel with
  | zero => intro q a h; have := msb_pos hb; exact ⟨rfl, by simp only [pdivLoop]; omega⟩
  | succ fuel ih =>
    intro q a h
    unfold pdivLoop
    split
    · next h1 => exact ⟨rfl, h1⟩
    · next h1 =>
      have hlt := msb_align_lt hb (Nat.not_lt.1 h1)
      obtain ⟨e, hm⟩ := ih (q ^^^ 1 <<< (msb a - msb b)) (a ^^^ b <<< (msb a - msb b)) (by omega)
      refine ⟨?_, hm⟩
      rw [e, clmul_xor_left, clmul_two_pow_left, xor_xor_xor_comm, Nat.xor_self, Nat.xor_zero]

/-- Division of polynomials: a = q · b ⊕ r with r of smaller degree than b (00_scope.md R13). -/
theorem pdivmod_spec (a : Nat) {b : Nat} (hb : b ≠ 0) :
    clmul (pdiv a b) b ^^^ pmod a b = a ∧ msb (pmod a b) < msb b := by
  obtain ⟨e, hm⟩ := pdivLoop_spec hb (msb a) 0 a (Nat.le_refl _)
  rw [clmul_zero_left, Nat.zero_xor] at e
  exact ⟨e, hm⟩

theorem pmod_eq_xor (a : Nat) {b : Nat} (hb : b ≠ 0) : pmod a b = a ^^^ clmul (pdiv a b) b := by
  have e := (pdivmod_spec a hb).1
  conv => rhs; lhs; rw [← e]
  rw [Nat.xor_comm (clmul _ _), Nat.xor_assoc, Nat.xor_self, Nat.xor_zero]

theorem xor_eq_zero {a b : Nat} : a ^^^ b = 0 ↔ a = b := by
  constructor
  · intro h
    apply Nat.eq_of_testBit_eq
    intro i
    have := congrArg (fun v => Nat.testBit v i) h
    simpa using this
  · rintro rfl; exact Nat.xor_self a

/-- The quotient and remainder are the only ones (00_scope.md R13). -/
theorem pdivmod_unique {b q r q' r' : Nat} (e : clmul q b ^^^ r = clmul q' b ^^^ r')
    (hr : msb r < msb b) (hr' : msb r' < msb b) : q = q' ∧ r = r' := by
  have hb : b ≠ 0 := by rintro rfl; simp at hr
  have e1 : clmul (q ^^^ q') b = r ^^^ r' := by
    rw [clmul_xor_left, ← xor_eq_zero, xor_xor_xor_comm, e, xor_xor_xor_comm, Nat.xor_self, Nat.xor_self]
    rfl
  have e2 : q ^^^ q' = 0 := by
    by_contra hq
    have h1 := msb_clmul hq hb
    have h2 := msb_pos hq
    have h3 := msb_xor_le (Nat.le_sub_one_of_lt hr) (Nat.le_sub_one_of_lt hr')
    rw [e1] at h1
    omega
  rw [e2, clmul_zero_left] at e1
  exact ⟨xor_eq_zero.1 e2, xor_eq_zero.1 e1.symm⟩

/-- `pmod` is known by what it satisfies. -/
theorem pmod_unique {a b q r : Nat} (e : clmul q b ^^^ r = a) (hr : msb r < msb b) : pmod a b = r := by
  have hb : b ≠ 0 := by rintro rfl; simp at hr
  obtain ⟨e', h'⟩ := pdivmod_spec a hb
  exact (pdivmod_unique (e'.trans e.symm) h' hr).2

theorem pmod_lt {a b : Nat} (hb : b ≠ 0) : msb (pmod a b) < msb b := (pdivmod_spec a hb).2

/-- Adding a multiple of b does not change the remainder. -/
theorem pmod_xor_clmul (a q : Nat) {b : Nat} (hb : b ≠ 0) : pmod (a ^^^ clmul q b) b = pmod a b := by
  refine pmod_unique (q := pdiv a b ^^^ q) ?_ (pmod_lt hb)
  rw [clmul_xor_left, Nat.xor_assoc, Nat.xor_comm (clmul q b), ← Nat.xor_assoc, (pdivmod_spec a hb).1]

theorem pmod_of_lt {a b : Nat} (h : msb a < msb b) : pmod a b = a :=
  pmod_unique (q := 0) (by simp) h

theorem msb_pdiv_le (a : Nat) {b : Nat} (hb : b ≠ 0) : msb (pdiv a b) ≤ msb a := by
  have pb := msb_pos hb
  by_cases hq : pdiv a b = 0
  · simp [hq]
  · have h1 := msb_clmul hq hb
    have h2 := pmod_lt (a := a) hb
    have e : clmul (pdiv a b) b = a ^^^ pmod a b := by
      conv => rhs; lhs; rw [← (pdivmod_spec a hb).1]
      rw [Nat.xor_assoc, Nat.xor_self, Nat.xor_zero]
    have pq := msb_pos hq
    by_contra hlt
    have h3 : msb (a ^^^ pmod a b) ≤ msb (pdiv a b) + msb b - 2 := msb_xor_le (by omega) (by omega)
    rw [← e, h1] at h3
    omega

/-! ### The extended Euclidean algorithm -/

/-- What the loop keeps, for the pair it starts from: a coefficient of u for each remainder modulo p, and
every common divisor of the result. -/
theorem pegcdLoop_spec (u p : Nat) : ∀ (fuel r0 r1 s0 s1 : Nat), msb r1 < fuel →
    (∃ t, clmul s0 u ^^^ clmul t p = r0) → (∃ t, clmul s1 u ^^^ clmul t p = r1) →
    (∃ t, clmul (pegcdLoop fuel r0 r1 s0 s1).2 u ^^^ clmul t p = (pegcdLoop fuel r0 r1 s0 s1).1) ∧
    (∃ y, clmul y (pegcdLoop fuel r0 r1 s0 s1).1 = r0) ∧ (∃ y, clmul y (pegcdLoop fuel r0 r1 s0 s1).1 = r1) := by
  intro fuel
  induction fuel with
  | zero => intro r0 r1 s0 s1 h; omega
  | succ fuel ih =>
    intro r0 r1 s0 s1 hf h0 h1
    unfold pegcdLoop
    split
    · next h => subst h; exact ⟨h0, ⟨1, clmul_one_left _⟩, ⟨0, clmul_zero_left _⟩⟩
    · next h =>
      have hlt := pmod_lt (a := r0) h
      obtain ⟨t0, e0⟩ := h0
      obtain ⟨t1, e1⟩ := h1
      have h2 : ∃ t, clmul (s0 ^^^ clmul (pdiv r0 r1) s1) u ^^^ clmul t p = pmod r0 r1 := by
        refine ⟨t0 ^^^ clmul (pdiv r0 r1) t1, ?_⟩
        rw [pmod_eq_xor r0 h, clmul_xor_left, clmul_xor_left, xor_xor_xor_comm, e0, clmul_assoc, clmul_assoc,
          ← clmul_xor_right, e1]
      obtain ⟨a1, ⟨y1, b1⟩, ⟨y2, b2⟩⟩ := ih r1 (pmod r0 r1) s1 (s0 ^^^ clmul (pdiv r0 r1) s1) (by omega)
        ⟨t1, e1⟩ h2
      refine ⟨a1, ⟨clmul (pdiv r0 r1) y1 ^^^ y2, ?_⟩, ⟨y1, b1⟩⟩
      rw [clmul_xor_left, clmul_assoc, b1, b2, (pdivmod_spec r0 h).1]

/-- The gcd divides both values and is a combination of them (00_scope.md R13). -/
theorem pegcd_spec (u p : Nat) :
    (∃ t, clmul (pegcd u p).2 u ^^^ clmul t p = pgcd u p) ∧
    (∃ y, clmul y (pgcd u p) = u) ∧ (∃ y, clmul y (pgcd u p) = p) :=
  pegcdLoop_spec u p (msb p + 1) u p 1 0 (Nat.lt_succ_self _)
    ⟨0, by simp [clmul_one_left]⟩ ⟨1, by simp [clmul_one_left]⟩

/-- The polynomial inverse of a unit (49_gf2m.md R225). -/
theorem pinv_spec {u p : Nat} (hp : p ≠ 0) (h : pgcd u p = 1) :
    msb (pinv u p) < msb p ∧ pmod (clmul u (pinv u p)) p = pmod 1 p := by
  refine ⟨pmod_lt hp, ?_⟩
  obtain ⟨t, e⟩ := (pegcd_spec u p).1
  rw [pinv, pmod_eq_xor (pegcd u p).2 hp, clmul_xor_right, ← clmul_assoc, pmod_xor_clmul _ _ hp, clmul_comm, ← h, ← e,
    pmod_xor_clmul _ _ hp]

/-- The inverse is the only one of its degree (49_gf2m.md R225). -/
theorem pinv_unique {u p v w : Nat} (hp : p ≠ 0) (hv : msb v < msb p) (hw : msb w < msb p)
    (ev : pmod (clmul u v) p = pmod 1 p) (ew : pmod (clmul u w) p = pmod 1 p) : v = w := by
  have key : ∀ x y, pmod (clmul u x) p = pmod 1 p → msb y < msb p → pmod (clmul (clmul u x) y) p = y := by
    intro x y ex hy
    have e1 := (pdivmod_spec (clmul u x) hp).1
    have e2 := (pdivmod_spec 1 hp).1
    rw [← e1, clmul_xor_left, clmul_comm (clmul _ p), ← clmul_assoc, Nat.xor_comm, pmod_xor_clmul _ _ hp, ex]
    have : pmod 1 p = 1 ^^^ clmul (pdiv 1 p) p := pmod_eq_xor 1 hp
    rw [this, clmul_xor_left, clmul_one_left, clmul_comm (clmul _ p), ← clmul_assoc, pmod_xor_clmul _ _ hp,
      pmod_of_lt hy]
  have h1 := key v w ev hw
  have h2 := key w v ew hv
  rw [clmul_assoc, clmul_comm v w, ← clmul_assoc, h2] at h1
  exact h1

/-- Where an inverse exists the gcd is 1 (49_gf2m.md R225). -/
theorem pgcd_eq_one_of_inverse {u p v : Nat} (hp : p ≠ 0) (e : pmod (clmul u v) p = pmod 1 p) :
    pgcd u p = 1 := by
  obtain ⟨-, ⟨y, hy⟩, ⟨z, hz⟩⟩ := pegcd_spec u p
  have e1 := (pdivmod_spec (clmul u v) hp).1
  have e2 := (pdivmod_spec 1 hp).1
  have e3 : clmul u v ^^^ clmul (pdiv (clmul u v) p ^^^ pdiv 1 p) p = 1 := by
    conv => lhs; lhs; rw [← e1, e]
    conv => rhs; rw [← e2]
    rw [clmul_xor_left, Nat.xor_comm (clmul _ _) (pmod 1 p), Nat.xor_assoc, ← Nat.xor_assoc (clmul _ _),
      Nat.xor_self, Nat.zero_xor, Nat.xor_comm]
  have e4 : clmul (clmul v y ^^^ clmul (pdiv (clmul u v) p ^^^ pdiv 1 p) z) (pgcd u p) = 1 := by
    rw [clmul_xor_left, clmul_assoc, clmul_assoc, hy, hz, clmul_comm v u]; exact e3
  have hg : pgcd u p ≠ 0 := by intro h; rw [h] at e4; simp at e4
  have hx : clmul v y ^^^ clmul (pdiv (clmul u v) p ^^^ pdiv 1 p) z ≠ 0 := by intro h; rw [h] at e4; simp at e4
  have hm := msb_clmul hx hg
  rw [e4] at hm
  have hone : msb 1 = 1 := rfl
  have h1 := msb_pos hg
  have h2 := msb_pos hx
  have h3 : pgcd u p < 2 ^ 1 := msb_le_iff.1 (by omega)
  omega

end Sys2Proof.Machine
end

