-- ==== Sys2Proof/Laws/Commands.lean ====
section
/-! SUPPORT. What the completion of a command can do, said once: the frames of results and of errors, how
a list of checks decides between them, and the shape every command's meaning has. The proofs about single
commands cite these and unfold a meaning once. -/

namespace Sys2Proof.Machine

/-! ### Frames -/

theorem keepsHostSide_refl (s : State) : KeepsHostSide s s := by simp [KeepsHostSide]

/-- Completing a state of results that kept the host's side. -/
theorem completesWith_complete {e : ErrCode} {s r : State} (h : KeepsHostSide s r) (ha : r.anyErr = s.anyErr) :
    CompletesWith e s (r.complete e) := by
  obtain ⟨h1,h2,h3,h4,h5,h6,h7⟩ := h
  simp [CompletesWith, KeepsHostSide, *]

/-- Raising an error writes STATUS and PEND and nothing else (60_exceptions.md R243). -/
theorem failsWith_complete {e : ErrCode} (s : State) (h : e ≠ .ok) : FailsWith e s (s.complete e) :=
  ⟨h, completesWith_complete (keepsHostSide_refl s) rfl, by simp⟩

/-- Writing one register and completing. -/
theorem writesRegs_one (s : State) (d : Reg) (v : Nat) :
    WritesRegs [d] s ((s.setReg d v).complete .ok) := by
  refine ⟨completesWith_complete (by simp [KeepsHostSide]) rfl, ?_, by simp, by simp, by simp⟩
  intro r hr; simp at hr; simp [hr]

/-- Writing two registers, the second last, and completing. -/
theorem writesRegs_two (s : State) (d e : Reg) (v w : Nat) :
    WritesRegs [d,e] s (((s.setReg d v).setReg e w).complete .ok) := by
  refine ⟨completesWith_complete (by simp [KeepsHostSide]) rfl, ?_, by simp, by simp, by simp⟩
  intro r hr; simp at hr; simp [hr]

/-- Writing one register with a free value and completing. -/
theorem writesRegsFree_one (s : State) (d : Reg) (v : Nat) :
    WritesRegsFree [d] s (((s.setReg d v).useFree).complete .ok) := by
  refine ⟨completesWith_complete (by simp [KeepsHostSide]) rfl, ?_, by simp, by simp, by simp⟩
  intro r hr; simp at hr; simp [hr]

/-- Writing two registers, one with a free value, and completing. -/
theorem writesRegsFree_two (s : State) (d e : Reg) (v w : Nat) :
    WritesRegsFree [d,e] s ((((s.setReg d v).setReg e w).useFree).complete .ok) := by
  refine ⟨completesWith_complete (by simp [KeepsHostSide]) rfl, ?_, by simp, by simp, by simp⟩
  intro r hr; simp at hr; simp [hr]

/-- Writing one register and C and completing. -/
theorem writesRegsAndC_one (s : State) (d : Reg) (v : Nat) (b) :
    WritesRegsAndC [d] s (((s.setReg d v).setC b).complete .ok) := by
  refine ⟨completesWith_complete (by simp [KeepsHostSide]) rfl, ?_, by simp, by simp⟩
  intro r hr; simp at hr; simp [hr]

/-- Writing RES and completing. -/
theorem writesRes_one (s : State) (v) : WritesRes s ((s.setRes v).complete .ok) := by
  refine ⟨completesWith_complete (by simp [KeepsHostSide]) rfl, ?_, by simp, by simp⟩
  intro r; simp

/-! ### Checks -/

/-- A check of a statement and the check of a meaning agree: both raise the same error, or neither does. -/
def CheckAgrees (p : Prop × ErrCode) (o : Option ErrCode) : Prop :=
  p.2 ≠ .ok ∧ ((p.1 ∧ o = some p.2) ∨ (¬ p.1 ∧ o = none))

/-- A command that ends from a list of checks runs as its rule says, where the two lists agree. -/
theorem runsAs_checked {i : Instr} {s : State} {checks : List (Prop × ErrCode)} {post : State → Prop}
    {c : List (Option ErrCode)} {r : State} (hx : exec i s = checked (firstErr c) s r)
    (hc : List.Forall₂ CheckAgrees checks c)
    (hp : NoneFailing checks → post (r.complete .ok)) : RunsAs i s checks post := by
  rw [RunsAs, hx]
  constructor
  · intro hn
    have : firstErr c = none := by
      rw [firstErr_eq_none]
      intro o ho
      clear hx hp
      induction hc with
      | nil => simp at ho
      | cons h _ ih =>
        rename_i p o' l1 l2 h2
        rcases List.mem_cons.1 ho with rfl | ho
        · rcases h.2 with ⟨a, b⟩ | ⟨a, b⟩
          · exact absurd a (hn _ (List.mem_cons_self))
          · exact b
        · exact ih (fun c hc => hn c (List.mem_cons_of_mem _ hc)) ho
    rw [this]
    exact ⟨_, rfl, hp hn⟩
  · intro e he
    have : firstErr c = some e ∧ e ≠ .ok := by
      clear hx hp
      induction hc with
      | nil => exact he.elim
      | cons h _ ih =>
        rcases h.2 with ⟨a, b⟩ | ⟨a, b⟩
        · rcases he with ⟨_, rfl⟩ | ⟨na, _⟩
          · rw [b]; exact ⟨rfl, h.1⟩
          · exact absurd a na
        · rcases he with ⟨aa, _⟩ | ⟨_, he⟩
          · exact absurd aa a
          · rw [b]; exact ih he
    rw [this.1]
    exact ⟨_, rfl, failsWith_complete _ this.2⟩

/-- One condition and its check. -/
theorem checkAgrees_errIf {p : Prop} [Decidable p] {b : Bool} {e : ErrCode} (he : e ≠ .ok) (h : b = decide p) :
    CheckAgrees (p, e) (errIf b e) := by
  subst h
  by_cases h : p <;> simp [CheckAgrees, h, errIf, he]

/-- A list of checks whose first is itself a list. -/
theorem firstErr_append (a b : List (Option ErrCode)) : firstErr (firstErr a :: b) = firstErr (a ++ b) := by
  induction a with
  | nil => rfl
  | cons x a ih => cases x with
    | none => simpa using ih
    | some e => rfl

theorem checkAgrees_ulen {s : State} {m : Reg} :
    CheckAgrees (2 ^ (32 * s.kWords) ≤ s.reg m, ErrCode.invalidLength)
      (errIf (decide (s.kWords < ulen (s.reg m))) .invalidLength) := by
  apply checkAgrees_errIf (by decide)
  have := @ulen_le_iff (s.reg m) s.kWords
  rw [decide_eq_decide]; omega

/-- The two checks of ModCheck(x[M], false), one by one. -/
def modulusCheckList (s : State) (m : Reg) :
    List (Option ErrCode) := [errIf (s.reg m = 0) .divisionByZero, errIf (s.kWords < ulen (s.reg m)) .invalidLength]

/-- The three checks of ModCheck(x[M], true), one by one. -/
def oddModulusCheckList (s : State) (m : Reg) :
    List (Option ErrCode) := modulusCheckList s m ++ [errIf (s.reg m % 2 = 0) .notInvertible]

theorem modCheck_false (s : State) (m : Reg) :
    modCheck s.kWords (s.reg m) false = firstErr (modulusCheckList s m) := by
  simp only [modCheck, modulusCheckList, Bool.false_and, errIf_false]
  generalize errIf (decide (s.reg m = 0)) .divisionByZero = x
  generalize errIf (decide (s.kWords < ulen (s.reg m))) .invalidLength = y
  cases x <;> cases y <;> rfl

theorem modCheck_true (s : State) (m : Reg) :
    modCheck s.kWords (s.reg m) true = firstErr (oddModulusCheckList s m) := by
  simp [modCheck, oddModulusCheckList, modulusCheckList, bitOf]

theorem modulusChecks_agree (s : State) (m : Reg) :
    List.Forall₂ CheckAgrees (modulusChecks s m) (modulusCheckList s m) :=
  .cons (checkAgrees_errIf (by decide) rfl) (.cons checkAgrees_ulen .nil)

theorem oddModulusChecks_agree (s : State) (m : Reg) :
    List.Forall₂ CheckAgrees (oddModulusChecks s m) (oddModulusCheckList s m) :=
  List.rel_append (modulusChecks_agree s m) (.cons (checkAgrees_errIf (by decide) rfl) .nil)

theorem rangeChecks_agree (s : State) (a m : Reg) :
    List.Forall₂ CheckAgrees (rangeChecks s a m) [rangeCheck (s.reg a) (s.reg m)] :=
  .cons (checkAgrees_errIf (by decide) rfl) .nil

/-! ### The shape of every command -/

/-- A check that raises, if anything, a code of some command's rule: neither Ok, nor InvariantViolation, nor
IllegalCommand. -/
def GoodCheck (c : Option ErrCode) : Prop :=
  ∀ e, c = some e → e ≠ .ok ∧ e ≠ .invariantViolation ∧ e ≠ .illegalCommand

theorem goodCheck_none : GoodCheck none := by simp [GoodCheck]

theorem goodCheck_errIf {p : Bool} {e : ErrCode} (h : GoodCheck (some e)) : GoodCheck (errIf p e) := by
  cases p
  · exact goodCheck_none
  · exact h

theorem goodCheck_firstErr {l : List (Option ErrCode)} (h : ∀ c ∈ l, GoodCheck c) : GoodCheck (firstErr l) :=
  fun e he => h _ (firstErr_mem he) e rfl

theorem goodCheck_firstErr_two {c c' : Option ErrCode} (h : GoodCheck c) (h' : GoodCheck c') :
    GoodCheck (firstErr [c, c']) := goodCheck_firstErr (by simp [h, h'])

theorem goodCheck_firstErr_three {c c' c'' : Option ErrCode} (h : GoodCheck c) (h' : GoodCheck c')
    (h'' : GoodCheck c'') : GoodCheck (firstErr [c, c', c'']) := goodCheck_firstErr (by simp [h, h', h''])

theorem goodCheck_invalidLength {p : Bool} : GoodCheck (errIf p .invalidLength) :=
  goodCheck_errIf (by simp [GoodCheck])
theorem goodCheck_notInvertible {p : Bool} : GoodCheck (errIf p .notInvertible) :=
  goodCheck_errIf (by simp [GoodCheck])
theorem goodCheck_outOfRange {p : Bool} : GoodCheck (errIf p .operandOutOfRange) :=
  goodCheck_errIf (by simp [GoodCheck])
theorem goodCheck_zero {v : Nat} : GoodCheck (zeroCheck v) := goodCheck_errIf (by simp [GoodCheck])
theorem goodCheck_alias {d e : Reg} : GoodCheck (aliasCheck d e) := goodCheck_errIf (by simp [GoodCheck])
theorem goodCheck_range {v n : Nat} : GoodCheck (rangeCheck v n) := goodCheck_outOfRange
theorem goodCheck_bitIndex {k i : Nat} : GoodCheck (bitIndexCheck k i) := goodCheck_invalidLength
theorem goodCheck_mod {k n : Nat} {b : Bool} : GoodCheck (modCheck k n b) :=
  goodCheck_firstErr_three goodCheck_zero goodCheck_invalidLength goodCheck_notInvertible

/-- A command ends from a check c, with the results r where c passes; r keeps the host's side, C and RES
where the command does not write them, and every register but its destinations; and its registers are in
range where those before it are. -/
structure Shape (i : Instr) (s : State) (c : Option ErrCode) (r : State) : Prop where
  eq : exec i s = checked c s r
  good : GoodCheck c
  host : KeepsHostSide s r
  anyErr : r.anyErr = s.anyErr
  carry : writesC i = false → r.c = s.c
  scalar : writesRes i = false → r.res = s.res
  regs : RegsSameExcept (destinations i) s r
  range : RegsInRange s → c = none → RegsInRange r

theorem regsInRange_setReg {s : State} {d : Reg} {v : Nat} (h : RegsInRange s)
    (hv : v < registerLimit s.kWords) : RegsInRange (s.setReg d v) := by
  intro r
  rw [State.setReg_reg]
  split
  · exact hv
  · exact h r

theorem regsInRange_setC {s : State} {b : Bool} (h : RegsInRange s) : RegsInRange (s.setC b) := by
  intro r; rw [State.setC_reg, State.setC_kWords]; exact h r

theorem regsInRange_setRes {s : State} {w : Word} (h : RegsInRange s) : RegsInRange (s.setRes w) := by
  intro r; rw [State.setRes_reg, State.setRes_kWords]; exact h r

theorem regsInRange_useFree {s : State} (h : RegsInRange s) : RegsInRange s.useFree := by
  intro r; rw [State.useFree_reg, State.useFree_kWords]; exact h r

theorem regsInRange_complete {s : State} {e : ErrCode} (h : RegsInRange s) : RegsInRange (s.complete e) := by
  intro r; rw [State.complete_reg, State.complete_kWords]; exact h r

/-- A command that writes one register. -/
theorem shape_setReg {i : Instr} {s : State} {c : Option ErrCode} {d : Reg} {v : Nat}
    (hd : destinations i = [d]) (eq : exec i s = checked c s (s.setReg d v)) (good : GoodCheck c)
    (hv : RegsInRange s → c = none → v < registerLimit s.kWords) : Shape i s c (s.setReg d v) where
  eq := eq
  good := good
  host := by simp [KeepsHostSide]
  anyErr := rfl
  carry _ := rfl
  scalar _ := rfl
  regs := by intro r hr; rw [hd] at hr; simp at hr; simp [hr]
  range h hc := regsInRange_setReg h (hv h hc)

/-- A command that writes two registers. -/
theorem shape_setReg_setReg {i : Instr} {s : State} {c : Option ErrCode} {d e : Reg} {v w : Nat}
    (hd : destinations i = [d, e]) (eq : exec i s = checked c s ((s.setReg d v).setReg e w)) (good : GoodCheck c)
    (hv : RegsInRange s → c = none → v < registerLimit s.kWords ∧ w < registerLimit s.kWords) :
    Shape i s c ((s.setReg d v).setReg e w) where
  eq := eq
  good := good
  host := by simp [KeepsHostSide]
  anyErr := rfl
  carry _ := rfl
  scalar _ := rfl
  regs := by intro r hr; rw [hd] at hr; simp at hr; simp [hr]
  range h hc := regsInRange_setReg (regsInRange_setReg h (hv h hc).1) (hv h hc).2

/-- A command that writes one register and C. -/
theorem shape_setC {i : Instr} {s : State} {d : Reg} {v : Nat} {b : Bool} (hd : destinations i = [d])
    (hw : writesC i = true) (eq : exec i s = succeed ((s.setReg d v).setC b))
    (hv : v < registerLimit s.kWords) : Shape i s none ((s.setReg d v).setC b) where
  eq := eq
  good := goodCheck_none
  host := by simp [KeepsHostSide]
  anyErr := rfl
  carry := by simp [hw]
  scalar _ := rfl
  regs := by intro r hr; rw [hd] at hr; simp at hr; simp [hr]
  range h _ := regsInRange_setC (regsInRange_setReg h hv)

/-- A command that writes RES. -/
theorem shape_setRes {i : Instr} {s : State} {c : Option ErrCode} {w : Word} (hw : writesRes i = true)
    (eq : exec i s = checked c s (s.setRes w)) (good : GoodCheck c) : Shape i s c (s.setRes w) where
  eq := eq
  good := good
  host := by simp [KeepsHostSide]
  anyErr := rfl
  carry _ := rfl
  scalar := by simp [hw]
  regs := by intro r _; simp
  range h _ := regsInRange_setRes h

/-- A command that reads n'. -/
theorem shape_withPrime {i : Instr} {s : State} {c : Option ErrCode} {ok : Bool} {d : Reg} {v : Nat}
    (hd : destinations i = [d]) (eq : exec i s = checked c s (withPrime ok d v s)) (good : GoodCheck c)
    (hv : RegsInRange s → c = none → v < registerLimit s.kWords) : Shape i s c (withPrime ok d v s) where
  eq := eq
  good := good
  host := by cases ok <;> simp [KeepsHostSide, withPrime]
  anyErr := by cases ok <;> rfl
  carry _ := by cases ok <;> rfl
  scalar _ := by cases ok <;> rfl
  regs := by intro r hr; rw [hd] at hr; simp at hr; cases ok <;> simp [hr, withPrime]
  range h hc := by
    cases ok
    · exact regsInRange_useFree (regsInRange_setReg h (freeRegValue_lt s))
    · exact regsInRange_setReg h (hv h hc)

/-! ### Values in range -/

theorem subN_lt (k a b : Nat) : subN k a b < registerLimit k := by
  have hp := registerLimit_pos k
  have h1 := Int.emod_lt_of_pos ((a : Int) - b) (show (0 : Int) < registerLimit k by omega)
  have h2 := Int.emod_nonneg ((a : Int) - b) (show (registerLimit k : Int) ≠ 0 by omega)
  unfold subN
  omega

theorem shiftLeftN_lt (k v n : Nat) : shiftLeftN k v n < registerLimit k := by
  rw [shiftLeftN_eq]; exact Nat.mod_lt _ (registerLimit_pos k)

theorem shiftRightN_lt {k v : Nat} (n : Nat) (h : v < registerLimit k) : shiftRightN v n < registerLimit k := by
  rw [shiftRightN_eq]; exact Nat.lt_of_le_of_lt (Nat.div_le_self ..) h

theorem gcd_lt {a b l : Nat} (ha : a < l) (hb : b < l) : Nat.gcd a b < l := by
  by_cases h : a = 0
  · rw [h, Nat.gcd_zero_left]; exact hb
  · exact (Nat.gcd_le_left _ (Nat.pos_of_ne_zero h)).trans_lt ha

/-- What ModCheck leaves of a modulus: it is not 0 and below the register's limit. -/
theorem modulus_of_modCheck {k n : Nat} {b : Bool} (h : modCheck k n b = none) : n ≠ 0 ∧ n < registerLimit k :=
  ⟨(modCheck_eq_none.1 h).1, lt_limit_of_ulen_le (modCheck_eq_none.1 h).2.1⟩

theorem mod_lt_of_modCheck {k n v : Nat} {b : Bool} (h : modCheck k n b = none) : v % n < registerLimit k :=
  (Nat.mod_lt _ (Nat.pos_of_ne_zero (modulus_of_modCheck h).1)).trans (modulus_of_modCheck h).2

theorem head_none {c : Option ErrCode} {l : List (Option ErrCode)} (h : firstErr (c :: l) = none) : c = none :=
  firstErr_eq_none.1 h _ List.mem_cons_self

theorem second_none {c c' : Option ErrCode} {l : List (Option ErrCode)} (h : firstErr (c :: c' :: l) = none) :
    c' = none := firstErr_eq_none.1 h _ (by simp)

theorem pmod_lt_limit {k a b : Nat} (h : b ≠ 0) (hb : b < registerLimit k) : pmod a b < registerLimit k :=
  msb_le_iff.1 ((pmod_lt h).le.trans (msb_le_iff.2 hb))

theorem pdiv_lt_limit {k a b : Nat} (h : b ≠ 0) (ha : a < registerLimit k) : pdiv a b < registerLimit k :=
  msb_le_iff.1 ((msb_pdiv_le a h).trans (msb_le_iff.2 ha))

theorem two_pow_word_le_limit (k : Nat) : 2 ^ 32 ≤ registerLimit k := by
  unfold registerLimit registerBits registerWords
  exact Nat.pow_le_pow_right (by omega) (by omega)

theorem radix_le_limit {k n : Nat} (h : ulen n ≤ k) : radix n ≤ registerLimit k := by
  unfold radix registerLimit registerBits registerWords
  exact Nat.pow_le_pow_right (by omega) (by omega)

theorem withWord_lt_limit {k v j : Nat} {w : Word} (hv : v < registerLimit k) (hj : j < registerWords k) :
    withWord v j w < registerLimit k := by
  unfold registerLimit registerBits at *
  exact withWord_lt w hv hj

/-! ### Every command -/

theorem succeed_eq_checked (s r : State) : succeed r = checked none s r := rfl

/-- Every command has that shape. -/
theorem exec_shape (i : Instr) (s : State) : ∃ c r, Shape i s c r := by
  cases i with
  | mov d a => exact ⟨_, _, shape_setReg rfl (succeed_eq_checked s _) goodCheck_none fun h _ => h a⟩
  | clr d => exact
    ⟨_, _, shape_setReg rfl (succeed_eq_checked s _) goodCheck_none fun _ _ => registerLimit_pos _⟩
  | getbit a => exact ⟨_, _, shape_setRes rfl rfl goodCheck_bitIndex⟩
  | setbit d => exact ⟨_, _, shape_setReg rfl rfl goodCheck_bitIndex 
      fun h hc => setBitNat_lt (h d) (bitIndexCheck_eq_none.1 hc)⟩
  | clrbit d => exact
    ⟨_, _, shape_setReg rfl rfl goodCheck_bitIndex fun h _ => (clearBitNat_le ..).trans_lt (h d)⟩
  | ulen a => exact ⟨_, _, shape_setRes rfl (succeed_eq_checked s _) goodCheck_none⟩
  | msb a => exact ⟨_, _, shape_setRes rfl (succeed_eq_checked s _) goodCheck_none⟩
  | shl d a => exact
    ⟨_, _, shape_setReg rfl (succeed_eq_checked s _) goodCheck_none fun _ _ => shiftLeftN_lt ..⟩
  | shr d a => exact
    ⟨_, _, shape_setReg rfl (succeed_eq_checked s _) goodCheck_none fun h _ => shiftRightN_lt _ (h a)⟩
  | shl1 d a => exact
    ⟨_, _, shape_setReg rfl (succeed_eq_checked s _) goodCheck_none fun _ _ => shiftLeftN_lt ..⟩
  | shr1 d a => exact
    ⟨_, _, shape_setReg rfl (succeed_eq_checked s _) goodCheck_none fun h _ => shiftRightN_lt _ (h a)⟩
  | shlw d a => exact
    ⟨_, _, shape_setReg rfl (succeed_eq_checked s _) goodCheck_none fun _ _ => shiftLeftN_lt ..⟩
  | shrw d a => exact
    ⟨_, _, shape_setReg rfl (succeed_eq_checked s _) goodCheck_none fun h _ => shiftRightN_lt _ (h a)⟩
  | cmp a b => exact ⟨_, _, shape_setRes rfl (succeed_eq_checked s _) goodCheck_none⟩
  | tstz a => exact ⟨_, _, shape_setRes rfl (succeed_eq_checked s _) goodCheck_none⟩
  | tstone a => exact ⟨_, _, shape_setRes rfl (succeed_eq_checked s _) goodCheck_none⟩
  | tstodd a => exact ⟨_, _, shape_setRes rfl (succeed_eq_checked s _) goodCheck_none⟩
  | add d a b => exact ⟨_, _, shape_setC rfl rfl rfl (wrapN_lt ..)⟩
  | sub d a b => exact ⟨_, _, shape_setC rfl rfl rfl (subN_lt ..)⟩
  | addw d a => exact ⟨_, _, shape_setC rfl rfl rfl (wrapN_lt ..)⟩
  | subw d a => exact ⟨_, _, shape_setC rfl rfl rfl (subN_lt ..)⟩
  | mul d a b => exact ⟨_, _, shape_setReg rfl (succeed_eq_checked s _) goodCheck_none fun _ _ => wrapN_lt ..⟩
  | sqr d a => exact
    ⟨_, _, shape_setReg rfl rfl goodCheck_invalidLength fun _ hc => sq_lt_limit_of_ulen_le (by
      have := errIf_eq_none.1 hc
      rw [registerWords_half] at this
      simpa using this)⟩
  | div d e a b => exact
    ⟨_, _, shape_setReg_setReg rfl rfl (goodCheck_firstErr_two goodCheck_alias goodCheck_zero) fun h _ =>
      ⟨(Nat.div_le_self ..).trans_lt (h a), (Nat.mod_le ..).trans_lt (h a)⟩⟩
  | divHac d e a b => exact
    ⟨_, _, shape_setReg_setReg rfl rfl (goodCheck_firstErr_two goodCheck_alias goodCheck_zero) fun h _ =>
      ⟨(Nat.div_le_self ..).trans_lt (h a), (Nat.mod_le ..).trans_lt (h a)⟩⟩
  | addmod d a b m => exact
    ⟨_, _, shape_setReg rfl rfl (goodCheck_firstErr_three goodCheck_mod goodCheck_range goodCheck_range) 
      fun _ hc => mod_lt_of_modCheck (head_none hc)⟩
  | submod d a b m => exact
    ⟨_, _, shape_setReg rfl rfl (goodCheck_firstErr_three goodCheck_mod goodCheck_range goodCheck_range)
      fun _ hc => by
      have hm := modulus_of_modCheck (head_none hc)
      have h1 := Int.emod_lt_of_pos ((s.reg a : Int) - s.reg b) (show (0 : Int) < s.reg m by omega)
      have h2 := Int.emod_nonneg ((s.reg a : Int) - s.reg b) (show (s.reg m : Int) ≠ 0 by omega)
      omega⟩
  | mod d a m => exact ⟨_, _, shape_setReg rfl rfl goodCheck_zero fun h _ => (Nat.mod_le ..).trans_lt (h a)⟩
  | modHac d a m => exact
    ⟨_, _, shape_setReg rfl rfl goodCheck_zero fun h _ => (Nat.mod_le ..).trans_lt (h a)⟩
  | mulmod d a b m => exact
    ⟨_, _, shape_setReg rfl rfl (goodCheck_firstErr_three goodCheck_mod goodCheck_range goodCheck_range) 
      fun _ hc => mod_lt_of_modCheck (head_none hc)⟩
  | mulmodMw d a b m => exact
    ⟨_, _, shape_setReg rfl rfl (goodCheck_firstErr_three goodCheck_mod goodCheck_range goodCheck_range) 
      fun _ hc => mod_lt_of_modCheck (head_none hc)⟩
  | mulmodMb d a b m => exact
    ⟨_, _, shape_setReg rfl rfl (goodCheck_firstErr_three goodCheck_mod goodCheck_range goodCheck_range) 
      fun _ hc => mod_lt_of_modCheck (head_none hc)⟩
  | mulmodMr d a b m => exact
    ⟨_, _, shape_setReg rfl rfl (goodCheck_firstErr_three goodCheck_mod goodCheck_range goodCheck_range) 
      fun _ hc => mod_lt_of_modCheck (head_none hc)⟩
  | mprime d m => exact ⟨_, _, shape_setReg rfl rfl goodCheck_mod fun _ _ =>
      (Nat.mod_lt _ (Nat.two_pow_pos 32)).trans_le (two_pow_word_le_limit _)⟩
  | mprimeR d m => exact ⟨_, _, shape_setReg rfl rfl goodCheck_mod fun _ hc =>
      (Nat.mod_lt _ (radix_pos _)).trans_le (radix_le_limit (modCheck_eq_none.1 hc).2.1)⟩
  | mrconst d m => exact ⟨_, _, shape_setReg rfl rfl goodCheck_mod fun _ hc => mod_lt_of_modCheck hc⟩
  | mrconstR2 d m => exact ⟨_, _, shape_setReg rfl rfl goodCheck_mod fun _ hc => mod_lt_of_modCheck hc⟩
  | redc d a m e => exact ⟨_, _, shape_withPrime rfl rfl
      (goodCheck_firstErr_two goodCheck_mod goodCheck_outOfRange)
      fun _ hc => mod_lt_of_modCheck (head_none hc)⟩
  | montpro d a b m e => exact
    ⟨_, _, shape_withPrime rfl rfl (goodCheck_firstErr_three goodCheck_mod goodCheck_range goodCheck_range)
      fun _ hc => mod_lt_of_modCheck (head_none hc)⟩
  | montproB d a b m e => exact
    ⟨_, _, shape_withPrime rfl rfl (goodCheck_firstErr_three goodCheck_mod goodCheck_range goodCheck_range)
      fun _ hc => mod_lt_of_modCheck (head_none hc)⟩
  | montproRc d a b m e => exact
    ⟨_, _, shape_withPrime rfl rfl (goodCheck_firstErr_three goodCheck_mod goodCheck_range goodCheck_range)
      fun _ hc => mod_lt_of_modCheck (head_none hc)⟩
  | exp d a b m => exact
    ⟨_, _, shape_setReg rfl rfl (goodCheck_firstErr_two goodCheck_mod goodCheck_range) fun _ hc => by
      rw [powMod_eq]; exact mod_lt_of_modCheck (head_none hc)⟩
  | expK4 d a b m => exact
    ⟨_, _, shape_setReg rfl rfl (goodCheck_firstErr_two goodCheck_mod goodCheck_range) fun _ hc => by
      rw [powMod_eq]; exact mod_lt_of_modCheck (head_none hc)⟩
  | expMont d a b m => exact
    ⟨_, _, shape_setReg rfl rfl (goodCheck_firstErr_two goodCheck_mod goodCheck_range) fun _ hc => by
      rw [powMod_eq]; exact mod_lt_of_modCheck (head_none hc)⟩
  | gcd d a b => exact
    ⟨_, _, shape_setReg rfl (succeed_eq_checked s _) goodCheck_none fun h _ => gcd_lt (h a) (h b)⟩
  | bxgcd d e a b =>
    refine ⟨aliasCheck d e, ((s.setReg d (Nat.gcd (s.reg a) (s.reg b))).setReg e s.freeRegValue).useFree,
      ⟨rfl, goodCheck_alias, by simp [KeepsHostSide], rfl, fun _ => rfl, fun _ => rfl, ?_, fun h _ =>
      regsInRange_useFree (regsInRange_setReg (regsInRange_setReg h (gcd_lt (h a) (h b))) (freeRegValue_lt s))⟩⟩
    intro r hr
    simp [destinations] at hr
    simp [hr]
  | eea d e a b => exact
    ⟨_, _, shape_setReg_setReg rfl rfl (goodCheck_firstErr_two goodCheck_alias goodCheck_zero) fun h hc =>
      ⟨by rw [eea_gcd]; exact gcd_lt (h a) (h b), (eea_lt (zeroCheck_eq_none.1 (second_none hc))).trans (h b)⟩⟩
  | inv d a m => exact
    ⟨_, _, shape_setReg rfl rfl (goodCheck_firstErr_two goodCheck_mod goodCheck_notInvertible) fun _ hc =>
      (invMod_lt (modulus_of_modCheck (head_none hc)).1).trans (modulus_of_modCheck (head_none hc)).2⟩
  | gfadd d a b => exact
    ⟨_, _, shape_setReg rfl (succeed_eq_checked s _) goodCheck_none fun h _ => Nat.xor_lt_two_pow (h a) (h b)⟩
  | gfmul d a b => exact
    ⟨_, _, shape_setReg rfl (succeed_eq_checked s _) goodCheck_none fun _ _ => wrapN_lt ..⟩
  | gfdiv d e a b => exact
    ⟨_, _, shape_setReg_setReg rfl rfl (goodCheck_firstErr_two goodCheck_alias goodCheck_zero) fun h hc =>
      ⟨pdiv_lt_limit (zeroCheck_eq_none.1 (second_none hc)) (h a),
        pmod_lt_limit (zeroCheck_eq_none.1 (second_none hc)) (h b)⟩⟩
  | gfmod d a m => exact ⟨_, _, shape_setReg rfl rfl goodCheck_zero fun h hc =>
      pmod_lt_limit (zeroCheck_eq_none.1 hc) (h m)⟩
  | gfmulmod d a b m => exact ⟨_, _, shape_setReg rfl rfl goodCheck_zero fun h hc =>
      pmod_lt_limit (zeroCheck_eq_none.1 hc) (h m)⟩
  | gfinv d a m => exact
    ⟨_, _, shape_setReg rfl rfl (goodCheck_firstErr_two goodCheck_zero goodCheck_notInvertible) fun h hc =>
      pmod_lt_limit (zeroCheck_eq_none.1 (head_none hc)) (h m)⟩

end Sys2Proof.Machine
end

