-- ==== Sys2Proof/Laws/Decode.lean ====
section
/-! SUPPORT. The fields of an encoded command word. -/

namespace Sys2Proof

theorem opcVar_lt (i : Instr) : (opcVar i).1 < 256 ∧ (opcVar i).2 < 8 := by
  cases i <;> simp [opcVar]

/-- A command word before it is cut to 32 bits: every field in its place, RSV = 0 (30_encoding.md R80). -/
theorem encode_toNat (i : Instr) : (encode i).toNat = matchNat i + fieldsNat (fieldsOf i) := by
  obtain ⟨h1, h2⟩ := opcVar_lt i
  have hd := (fieldsOf i).d.isLt
  have ha := (fieldsOf i).a.isLt
  have hb := (fieldsOf i).b.isLt
  have hm := (fieldsOf i).m.isLt
  have he := (fieldsOf i).e.isLt
  rw [encode, BitVec.toNat_ofNat, Nat.mod_eq_of_lt]
  unfold matchNat fieldsNat
  omega

theorem fieldOpc_encode (i : Instr) : fieldOpc (encode i) = (opcVar i).1 := by
  obtain ⟨h1, h2⟩ := opcVar_lt i
  unfold fieldOpc bits
  rw [encode_toNat]
  unfold matchNat fieldsNat
  omega

theorem fieldVar_encode (i : Instr) : fieldVar (encode i) = (opcVar i).2 := by
  obtain ⟨h1, h2⟩ := opcVar_lt i
  have hd := (fieldsOf i).d.isLt
  have ha := (fieldsOf i).a.isLt
  have hb := (fieldsOf i).b.isLt
  have hm := (fieldsOf i).m.isLt
  have he := (fieldsOf i).e.isLt
  unfold fieldVar bits
  rw [encode_toNat]
  unfold matchNat fieldsNat
  omega

theorem fieldRsv_encode (i : Instr) : fieldRsv (encode i) = 0 := by
  obtain ⟨h1, h2⟩ := opcVar_lt i
  have hd := (fieldsOf i).d.isLt
  have ha := (fieldsOf i).a.isLt
  have hb := (fieldsOf i).b.isLt
  have hm := (fieldsOf i).m.isLt
  have he := (fieldsOf i).e.isLt
  unfold fieldRsv bits
  rw [encode_toNat]
  unfold matchNat fieldsNat
  omega

/-- A register field of a word whose bits at that place are a register number. -/
theorem regField_eq {w : Word} {lo : Nat} {r : Reg} (h : bits w.toNat lo 4 = r.val) : regField w lo = r := by
  apply Fin.ext
  rw [regField, h]
  exact Nat.mod_eq_of_lt r.isLt

theorem regFields_encode (i : Instr) :
    fieldD (encode i) = (fieldsOf i).d ∧ fieldA (encode i) = (fieldsOf i).a ∧ fieldB (encode i) = (fieldsOf i).b ∧
    fieldM (encode i) = (fieldsOf i).m ∧ fieldE (encode i) = (fieldsOf i).e := by
  obtain ⟨h1, h2⟩ := opcVar_lt i
  have hd := (fieldsOf i).d.isLt
  have ha := (fieldsOf i).a.isLt
  have hb := (fieldsOf i).b.isLt
  have hm := (fieldsOf i).m.isLt
  have he := (fieldsOf i).e.isLt
  refine ⟨regField_eq ?_, regField_eq ?_, regField_eq ?_, regField_eq ?_, regField_eq ?_⟩ <;>
    (unfold bits; rw [encode_toNat]; unfold matchNat fieldsNat; omega)

end Sys2Proof
end

