-- ==== Sys2Proof/Laws/PerInstr.lean ====
section
/-! SUPPORT. Statements about every instruction as syntax, one lemma per constructor. -/

namespace Sys2Proof.Laws

/-- The word of an instruction has its row's match under the row's mask 0xF00000FF (30_encoding.md R86). -/
def MatchWord.Statement (i : Instr) : Prop := encode i &&& 0xF00000FF#32 = BitVec.ofNat 32 (matchNat i)

/-- The mask 0xF00000FF keeps OPC, VAR and RSV, that is the low 8 and the high 4 bits. -/
theorem and_mask_eq (w : Word) :
    w &&& 0xF00000FF#32 = BitVec.ofNat 32 (w.toNat % 2 ^ 8 + 2 ^ 28 * (w.toNat / 2 ^ 28)) := by
  apply BitVec.eq_of_getLsbD_eq
  intro j hj
  have hlt : w.toNat % 2 ^ 8 < 2 ^ 28 := by omega
  rw [BitVec.getLsbD_ofNat, Nat.add_comm, Nat.testBit_two_pow_mul_add _ hlt, Nat.testBit_mod_two_pow,
    Nat.testBit_div_two_pow, BitVec.testBit_toNat, BitVec.getLsbD_and]
  by_cases h1 : j < 28
  · by_cases h2 : j < 8
    · have : (0xF00000FF#32).getLsbD j = true := by interval_cases j <;> rfl
      rw [this]; simp [hj, h1, h2]
    · have : (0xF00000FF#32).getLsbD j = false := by interval_cases j <;> rfl
      rw [this]; simp [h1, h2]
  · have : (0xF00000FF#32).getLsbD j = true := by interval_cases j <;> rfl
    have e : j - 28 + 28 = j := by omega
    rw [this, if_neg h1, e, BitVec.testBit_toNat]; simp [hj]

theorem matchWord_of (i : Instr) : MatchWord.Statement i := by
  obtain ⟨h1, h2⟩ := opcVar_lt i
  have hd := (fieldsOf i).d.isLt
  have ha := (fieldsOf i).a.isLt
  have hb := (fieldsOf i).b.isLt
  have hm := (fieldsOf i).m.isLt
  have he := (fieldsOf i).e.isLt
  rw [MatchWord.Statement, and_mask_eq, encode_toNat]
  congr 1
  unfold matchNat fieldsNat
  omega

theorem MatchWord.mov (d a : Reg) : MatchWord.Statement (.mov d a) := matchWord_of _
theorem MatchWord.clr (d : Reg) : MatchWord.Statement (.clr d) := matchWord_of _
theorem MatchWord.getbit (a : Reg) : MatchWord.Statement (.getbit a) := matchWord_of _
theorem MatchWord.setbit (d : Reg) : MatchWord.Statement (.setbit d) := matchWord_of _
theorem MatchWord.clrbit (d : Reg) : MatchWord.Statement (.clrbit d) := matchWord_of _
theorem MatchWord.ulen (a : Reg) : MatchWord.Statement (.ulen a) := matchWord_of _
theorem MatchWord.msb (a : Reg) : MatchWord.Statement (.msb a) := matchWord_of _
theorem MatchWord.shl (d a : Reg) : MatchWord.Statement (.shl d a) := matchWord_of _
theorem MatchWord.shr (d a : Reg) : MatchWord.Statement (.shr d a) := matchWord_of _
theorem MatchWord.shl1 (d a : Reg) : MatchWord.Statement (.shl1 d a) := matchWord_of _
theorem MatchWord.shr1 (d a : Reg) : MatchWord.Statement (.shr1 d a) := matchWord_of _
theorem MatchWord.shlw (d a : Reg) : MatchWord.Statement (.shlw d a) := matchWord_of _
theorem MatchWord.shrw (d a : Reg) : MatchWord.Statement (.shrw d a) := matchWord_of _
theorem MatchWord.cmp (a b : Reg) : MatchWord.Statement (.cmp a b) := matchWord_of _
theorem MatchWord.tstz (a : Reg) : MatchWord.Statement (.tstz a) := matchWord_of _
theorem MatchWord.tstone (a : Reg) : MatchWord.Statement (.tstone a) := matchWord_of _
theorem MatchWord.tstodd (a : Reg) : MatchWord.Statement (.tstodd a) := matchWord_of _
theorem MatchWord.add (d a b : Reg) : MatchWord.Statement (.add d a b) := matchWord_of _
theorem MatchWord.sub (d a b : Reg) : MatchWord.Statement (.sub d a b) := matchWord_of _
theorem MatchWord.addw (d a : Reg) : MatchWord.Statement (.addw d a) := matchWord_of _
theorem MatchWord.subw (d a : Reg) : MatchWord.Statement (.subw d a) := matchWord_of _
theorem MatchWord.mul (d a b : Reg) : MatchWord.Statement (.mul d a b) := matchWord_of _
theorem MatchWord.sqr (d a : Reg) : MatchWord.Statement (.sqr d a) := matchWord_of _
theorem MatchWord.div (d e a b : Reg) : MatchWord.Statement (.div d e a b) := matchWord_of _
theorem MatchWord.divHac (d e a b : Reg) : MatchWord.Statement (.divHac d e a b) := matchWord_of _
theorem MatchWord.addmod (d a b m : Reg) : MatchWord.Statement (.addmod d a b m) := matchWord_of _
theorem MatchWord.submod (d a b m : Reg) : MatchWord.Statement (.submod d a b m) := matchWord_of _
theorem MatchWord.mod (d a m : Reg) : MatchWord.Statement (.mod d a m) := matchWord_of _
theorem MatchWord.modHac (d a m : Reg) : MatchWord.Statement (.modHac d a m) := matchWord_of _
theorem MatchWord.mulmod (d a b m : Reg) : MatchWord.Statement (.mulmod d a b m) := matchWord_of _
theorem MatchWord.mulmodMw (d a b m : Reg) : MatchWord.Statement (.mulmodMw d a b m) := matchWord_of _
theorem MatchWord.mulmodMb (d a b m : Reg) : MatchWord.Statement (.mulmodMb d a b m) := matchWord_of _
theorem MatchWord.mulmodMr (d a b m : Reg) : MatchWord.Statement (.mulmodMr d a b m) := matchWord_of _
theorem MatchWord.mprime (d m : Reg) : MatchWord.Statement (.mprime d m) := matchWord_of _
theorem MatchWord.mprimeR (d m : Reg) : MatchWord.Statement (.mprimeR d m) := matchWord_of _
theorem MatchWord.mrconst (d m : Reg) : MatchWord.Statement (.mrconst d m) := matchWord_of _
theorem MatchWord.mrconstR2 (d m : Reg) : MatchWord.Statement (.mrconstR2 d m) := matchWord_of _
theorem MatchWord.redc (d a m e : Reg) : MatchWord.Statement (.redc d a m e) := matchWord_of _
theorem MatchWord.montpro (d a b m e : Reg) : MatchWord.Statement (.montpro d a b m e) := matchWord_of _
theorem MatchWord.montproB (d a b m e : Reg) : MatchWord.Statement (.montproB d a b m e) := matchWord_of _
theorem MatchWord.montproRc (d a b m e : Reg) : MatchWord.Statement (.montproRc d a b m e) := matchWord_of _
theorem MatchWord.exp (d a b m : Reg) : MatchWord.Statement (.exp d a b m) := matchWord_of _
theorem MatchWord.expK4 (d a b m : Reg) : MatchWord.Statement (.expK4 d a b m) := matchWord_of _
theorem MatchWord.expMont (d a b m : Reg) : MatchWord.Statement (.expMont d a b m) := matchWord_of _
theorem MatchWord.gcd (d a b : Reg) : MatchWord.Statement (.gcd d a b) := matchWord_of _
theorem MatchWord.bxgcd (d e a b : Reg) : MatchWord.Statement (.bxgcd d e a b) := matchWord_of _
theorem MatchWord.eea (d e a b : Reg) : MatchWord.Statement (.eea d e a b) := matchWord_of _
theorem MatchWord.inv (d a m : Reg) : MatchWord.Statement (.inv d a m) := matchWord_of _
theorem MatchWord.gfadd (d a b : Reg) : MatchWord.Statement (.gfadd d a b) := matchWord_of _
theorem MatchWord.gfmul (d a b : Reg) : MatchWord.Statement (.gfmul d a b) := matchWord_of _
theorem MatchWord.gfdiv (d e a b : Reg) : MatchWord.Statement (.gfdiv d e a b) := matchWord_of _
theorem MatchWord.gfmod (d a m : Reg) : MatchWord.Statement (.gfmod d a m) := matchWord_of _
theorem MatchWord.gfmulmod (d a b m : Reg) : MatchWord.Statement (.gfmulmod d a b m) := matchWord_of _
theorem MatchWord.gfinv (d a m : Reg) : MatchWord.Statement (.gfinv d a m) := matchWord_of _

end Sys2Proof.Laws
end

