-- ==== Sys2Proof/Laws/Window.lean ====
section
/-! SUPPORT. The offset map of the window, and that a host access keeps what registers must satisfy. -/

namespace Sys2Proof.Machine

theorem registerWords_pos (k : Nat) : 0 < registerWords k := by unfold registerWords; omega

/-- The offset of word j of Vi selects word j of Vi (20_memory.md R51, R52). -/
theorem registerAt_operandOffset {k j : Nat} (i : Reg) (hj : j < registerWords k) :
    registerAt k (operandOffset k i j) = .operand i j := by
  have h1 : operandOffset k i j = 4096 + 4 * (i.val * registerWords k + j) := rfl
  have h2 : (operandOffset k i j - Config.operandBase) / 4 = i.val * registerWords k + j := by
    rw [h1]; show (4096 + _ - 4096) / 4 = _; omega
  have hq : (i.val * registerWords k + j) / registerWords k = i.val := by
    rw [Nat.mul_comm, Nat.mul_add_div (registerWords_pos k), Nat.div_eq_of_lt hj, Nat.add_zero]
  have hr : (i.val * registerWords k + j) % registerWords k = j := by
    rw [Nat.mul_comm, Nat.mul_add_mod, Nat.mod_eq_of_lt hj]
  have h3 : operandAt k (operandOffset k i j) = .operand i j := by
    unfold operandAt
    simp only [h2, hq, hr, i.isLt, dite_true]
  have h4 : ¬ operandOffset k i j < Config.operandBase := by rw [h1]; show ¬ _ < 4096; omega
  unfold registerAt
  split <;> first | (rw [h1] at *; omega) | (rw [if_neg h4, h3])

/-- An operand word of the window is one of the N words of its register. -/
theorem registerAt_operand_lt {k off j : Nat} {i : Reg} (h : registerAt k off = .operand i j) :
    j < registerWords k := by
  unfold registerAt at h
  split at h <;> try contradiction
  split at h
  · contradiction
  · unfold operandAt at h
    dsimp only at h
    split at h
    · cases h; exact Nat.mod_lt _ (registerWords_pos k)
    · contradiction

/-- A host read changes nothing but the model's record of it (20_memory.md R58). -/
theorem hostRead_spec (s : State) (r : WindowReg) :
    ∃ v n, hostRead s r = { s with readData := v, freeCount := n } := by
  unfold hostRead
  split
  · exact ⟨_, s.freeCount, rfl⟩
  · exact ⟨_, _, rfl⟩

/-- Everything a host write can do (20_memory.md R58, 70_reset_and_hazards.md R280). -/
theorem hostWrite_cases (s : State) (r : WindowReg) (v : Word) :
    hostWrite s r v = s ∨
    (s.busy = true ∧ hostWrite s r v = { s with ovr := true }) ∨
    (s.busy = false ∧ r = .cmd ∧ hostWrite s r v = s.accept v) ∨
    (s.busy = false ∧ r = .arg ∧ hostWrite s r v = { s with arg := v }) ∨
    (∃ i j, s.busy = false ∧ r = .operand i j ∧ hostWrite s r v = writeOperand s i j v) ∨
    (r = .status ∧ hostWrite s r v = writeStatus s v) ∨
    (r = .ctrl ∧ hostWrite s r v = s.resetEngine) := by
  cases r with
  | id => exact .inl rfl
  | res => exact .inl rfl
  | reserved => exact .inl rfl
  | cmd =>
    cases hb : s.busy
    · exact .inr (.inr (.inl ⟨rfl, rfl, by simp [hostWrite, unlessBusy, hb]⟩))
    · exact .inr (.inl ⟨rfl, by simp [hostWrite, unlessBusy, hb]⟩)
  | arg =>
    cases hb : s.busy
    · exact .inr (.inr (.inr (.inl ⟨rfl, rfl, by simp [hostWrite, unlessBusy, hb]⟩)))
    · exact .inr (.inl ⟨rfl, by simp [hostWrite, unlessBusy, hb]⟩)
  | operand i j =>
    cases hb : s.busy
    · exact .inr (.inr (.inr (.inr (.inl ⟨i, j, rfl, rfl, by simp [hostWrite, unlessBusy, hb]⟩))))
    · exact .inr (.inl ⟨rfl, by simp [hostWrite, unlessBusy, hb]⟩)
  | status => exact .inr (.inr (.inr (.inr (.inr (.inl ⟨rfl, rfl⟩)))))
  | ctrl =>
    by_cases h : bits v.toNat 0 1 = 1
    · exact .inr (.inr (.inr (.inr (.inr (.inr ⟨rfl, by simp [hostWrite, writeCtrl, h]⟩)))))
    · exact .inl (by simp [hostWrite, writeCtrl, h])

end Sys2Proof.Machine
end

