-- ==== Sys2Proof/Laws/Step.lean ====
section
/-! SUPPORT. What one step can do, said once: a turn of the engine, and an admitted access of the host. -/

namespace Sys2Proof.Machine

theorem validCapacity_of_validBuild {s : State} (h : validBuild s = true) : validCapacity s.kWords = true := by
  simp [validBuild] at h
  exact h.1

/-- Every operand word lies in the window, at an aligned offset (20_memory.md R51, R52). -/
theorem operandOffset_lt {k : Nat} (hk : validCapacity k = true) (i : Reg) {j : Nat} (hj : j < registerWords k) :
    operandOffset k i j < 2 ^ 24 ∧ operandOffset k i j % 4 = 0 := by
  simp [validCapacity] at hk
  have h1 : operandOffset k i j = 4096 + 4 * (i.val * registerWords k + j) := rfl
  have h2 : i.val * registerWords k ≤ 15 * registerWords k := Nat.mul_le_mul_right _ (by omega)
  have h3 : registerWords k ≤ 131072 := by unfold registerWords; omega
  rw [h1]
  constructor <;> omega

/-- The offset of an address of the window. -/
theorem offsetOf_add {base off : Nat} (h : off < 2 ^ 24) : offsetOf base (base + off) = some off := by
  unfold offsetOf
  rw [if_pos]
  · congr 1; omega
  · show _ ∧ _ < _ + 16777216; omega

/-- An admitted access of the host acts on the register at its offset (20_memory.md R51, R56, R57). -/
theorem step_host {s : State} {a : Access} {rest : List Turn} {off : Nat} (hv : validBuild s = true)
    (ht : s.turns = .host a :: rest) (hp : a.place = (4, s.base + off)) (ho : off < 2 ^ 24) (h4 : off % 4 = 0) :
    step s = .next (a.perform { s with turns := rest } (registerAt s.kWords off)) := by
  simp [step, hv, nextTurn, ht, takeTurn, hostAccess, hp, offsetOf_add ho, admittedAccess, h4]

/-- The engine's turn, and the step where no turn is left (assumption 4). -/
theorem step_engine {s : State} {rest : List Turn} (hv : validBuild s = true) (ht : s.turns = .engine :: rest) :
    step s = engineMove { s with turns := rest } := by
  simp [step, hv, nextTurn, ht, takeTurn]

theorem step_no_turns {s : State} (hv : validBuild s = true) (ht : s.turns = []) : step s = engineMove s := by
  simp [step, hv, nextTurn, ht, takeTurn]

/-- A build out of range is refused before any turn is looked at (assumption 1). -/
theorem step_invalidBuild {s : State} (hv : validBuild s = false) : step s = .refused .invalidBuild := by
  simp [step, hv]

/-- All that the engine's move can be: idle, the decoded command, or the end of an illegal word
(30_encoding.md R87, R88, 60_exceptions.md R260). -/
theorem engineMove_none {s : State} (hp : s.pend = none) : engineMove s = .next s := by
  simp [engineMove, hp]

theorem engineMove_decoded {s : State} {p : Pending} {i : Instr} (hp : s.pend = some p) (hd : decode p.word = .ok i) :
    engineMove s = exec i s := by
  simp [engineMove, hp, execWord, hd]

theorem engineMove_illegal {s : State} {p : Pending} (hp : s.pend = some p) (hd : ∀ i, decode p.word ≠ .ok i) :
    engineMove s = raiseErr .illegalCommand s := by
  rcases h : decode p.word with e | i
  · simp [engineMove, hp, execWord, h]
  · exact absurd h (hd i)

theorem run_succ {s t : State} {n : Nat} (h : step s = .next t) :
    Sys2Proof.core.run (n + 1) s = Sys2Proof.core.run n t := by
  have : Sys2Proof.core.step s = .next t := h
  simp only [Host.Core.run]
  rw [this]

/-- A one-bit field is that bit. -/
theorem bits_one (v : Word) (i : Nat) : (bits v.toNat i 1 == 1) = v.getLsbD i := by
  rw [bits, ← BitVec.testBit_toNat, Nat.testBit_eq_decide_div_mod_eq]
  simp
  rfl

/-- The fields of the STATUS word (10_state.md R25). -/
theorem statusWord_fields (s : State) :
    (statusWord s).getLsbD 0 = s.busy ∧ (statusWord s).getLsbD 1 = s.c ∧ (statusWord s).getLsbD 2 = s.anyErr ∧
    (statusWord s).getLsbD 3 = s.ovr ∧ bits (statusWord s).toNat 4 4 = errNumber s.err ∧
    bits (statusWord s).toNat 8 24 = 0 := by
  unfold statusWord
  cases s.busy <;> cases s.c <;> cases s.anyErr <;> cases s.ovr <;> cases s.err <;> decide

end Sys2Proof.Machine
end

