-- ==== Sys2Proof/Tests/Slice0.lean ====
section
/-! SUPPORT. Small tests, each from a word, a vector or an example of the spec, and for every statement with
hypotheses a state that meets them, at the boundary values of its clauses. -/

namespace Sys2Proof.Tests

open Sys2Proof Sys2Proof.Machine

set_option Elab.async false

/-! ### The checks of WellFormed.lean refuse ill-formed terms -/

theorem test_capacity_refused : validCapacity 0 = false ∧ validCapacity 65536 = false := by decide
theorem test_capacity_admitted : validCapacity 1 = true ∧ validCapacity 65535 = true := by decide
theorem test_base_refused : validBase 0x800000 = false ∧ validBase 0x3000000 = true := by decide
theorem test_access_refused :
    admittedAccess 2 0x1000 = false ∧ admittedAccess 4 0x1002 = false ∧ admittedAccess 4 0x1000 = true := by decide
theorem test_register_refused : validRegisterNumber 16 = false ∧ validRegisterNumber 15 = true := by decide
theorem test_immediate_refused : validImmediate (2 ^ 32) = false ∧ validImmediate (2 ^ 32 - 1) = true := by decide

/-! ### Decoding: one word for each row, written from 30_encoding.md R80 and R86

D = 1, A = 2, B = 3, M = 4 and E = 5 in every word, also in the fields a row does not use (R81). -/

theorem test_decode_family_41 :
    decode 0x05432101 = .ok (.mov 1 2) ∧ decode 0x05432102 = .ok (.clr 1) ∧
    decode 0x05432103 = .ok (.getbit 2) ∧ decode 0x05432104 = .ok (.setbit 1) ∧
    decode 0x05432105 = .ok (.clrbit 1) ∧ decode 0x05432106 = .ok (.ulen 2) ∧ decode 0x05432107 = .ok (.msb 2) ∧
    decode 0x05432108 = .ok (.shl 1 2) ∧ decode 0x05432109 = .ok (.shr 1 2) ∧
    decode 0x0543210A = .ok (.shl1 1 2) ∧ decode 0x0543210B = .ok (.shr1 1 2) ∧
    decode 0x0543210C = .ok (.shlw 1 2) ∧ decode 0x0543210D = .ok (.shrw 1 2) ∧
    decode 0x0543210E = .ok (.cmp 2 3) ∧ decode 0x0543210F = .ok (.tstz 2) ∧
    decode 0x05432110 = .ok (.tstone 2) ∧ decode 0x05432111 = .ok (.tstodd 2) :=
  ⟨rfl, rfl, rfl, rfl, rfl, rfl, rfl, rfl, rfl, rfl, rfl, rfl, rfl, rfl, rfl, rfl, rfl⟩

theorem test_decode_family_42 :
    decode 0x05432120 = .ok (.add 1 2 3) ∧ decode 0x05432121 = .ok (.sub 1 2 3) ∧
    decode 0x05432122 = .ok (.addw 1 2) ∧ decode 0x05432123 = .ok (.subw 1 2) :=
  ⟨rfl, rfl, rfl, rfl⟩

theorem test_decode_family_43_44 :
    decode 0x05432128 = .ok (.mul 1 2 3) ∧ decode 0x05432129 = .ok (.sqr 1 2) ∧
    decode 0x05432130 = .ok (.div 1 5 2 3) ∧ decode 0x15432130 = .ok (.divHac 1 5 2 3) :=
  ⟨rfl, rfl, rfl, rfl⟩

theorem test_decode_family_45 :
    decode 0x05432138 = .ok (.addmod 1 2 3 4) ∧ decode 0x05432139 = .ok (.submod 1 2 3 4) ∧
    decode 0x0543213A = .ok (.mod 1 2 4) ∧ decode 0x1543213A = .ok (.modHac 1 2 4) ∧
    decode 0x0543213B = .ok (.mulmod 1 2 3 4) ∧ decode 0x1543213B = .ok (.mulmodMw 1 2 3 4) ∧
    decode 0x2543213B = .ok (.mulmodMb 1 2 3 4) ∧ decode 0x3543213B = .ok (.mulmodMr 1 2 3 4) :=
  ⟨rfl, rfl, rfl, rfl, rfl, rfl, rfl, rfl⟩

theorem test_decode_family_46 :
    decode 0x05432140 = .ok (.mprime 1 4) ∧ decode 0x15432140 = .ok (.mprimeR 1 4) ∧
    decode 0x05432141 = .ok (.mrconst 1 4) ∧ decode 0x15432141 = .ok (.mrconstR2 1 4) ∧
    decode 0x05432142 = .ok (.redc 1 2 4 5) ∧ decode 0x05432143 = .ok (.montpro 1 2 3 4 5) ∧
    decode 0x15432143 = .ok (.montproB 1 2 3 4 5) ∧ decode 0x25432143 = .ok (.montproRc 1 2 3 4 5) :=
  ⟨rfl, rfl, rfl, rfl, rfl, rfl, rfl, rfl⟩

theorem test_decode_family_47_48 :
    decode 0x05432148 = .ok (.exp 1 2 3 4) ∧ decode 0x15432148 = .ok (.expK4 1 2 3 4) ∧
    decode 0x25432148 = .ok (.expMont 1 2 3 4) ∧ decode 0x05432150 = .ok (.gcd 1 2 3) ∧
    decode 0x05432151 = .ok (.bxgcd 1 5 2 3) ∧ decode 0x05432152 = .ok (.eea 1 5 2 3) ∧
    decode 0x05432153 = .ok (.inv 1 2 4) :=
  ⟨rfl, rfl, rfl, rfl, rfl, rfl, rfl⟩

theorem test_decode_family_49 :
    decode 0x05432160 = .ok (.gfadd 1 2 3) ∧ decode 0x05432161 = .ok (.gfmul 1 2 3) ∧
    decode 0x05432162 = .ok (.gfdiv 1 5 2 3) ∧ decode 0x05432163 = .ok (.gfmod 1 2 4) ∧
    decode 0x05432164 = .ok (.gfmulmod 1 2 3 4) ∧ decode 0x05432165 = .ok (.gfinv 1 2 4) :=
  ⟨rfl, rfl, rfl, rfl, rfl, rfl⟩

/-- The words of 95_test_vectors.md S1–S7: an undefined OPC, an undefined VAR, RSV = 1, and all at once. -/
theorem test_decode_illegal :
    decode 0x00000000 = .error .undefinedOpcode ∧ decode 0x00000012 = .error .undefinedOpcode ∧
    decode 0x10001201 = .error .undefinedVariant ∧ decode 0x80001201 = .error .reservedBitSet ∧
    decode 0x40321448 = .error .undefinedVariant ∧ decode 0x34021330 = .error .undefinedVariant ∧
    decode 0xF0001201 = .error .reservedBitSet :=
  ⟨rfl, rfl, rfl, rfl, rfl, rfl, rfl⟩

theorem test_encode : encode (.montproRc 4 1 2 3 5) = 0x25321443 ∧ encode (.divHac 3 4 1 2) = 0x14021330 := by decide
theorem test_table_word : decodeTableWord 32 0x04021352 = some (.eea 3 4 1 2) ∧ decodeTableWord 32 0x12 = none :=
  ⟨rfl, rfl⟩

/-! ### Commands, from the vectors of 95_test_vectors.md -/

/-- The reset state with some operand registers and ARG loaded, RES = 85 and C = 1. -/
def loaded (regs : List (Reg × Nat)) (arg : Word) : State :=
  regs.foldl (fun s p => s.setReg p.1 p.2) { State.reset with arg := arg, res := 85, c := true }

/-- What one step of a command word leaves: ERR, RES, C and some operand registers. -/
def outcome (regs : List (Reg × Nat)) (arg : Word) (w : Nat) (ds : List Reg) :
    Option (Nat × Nat × Bool × List Nat) :=
  match step ((loaded regs arg).withFetchWord 32 w) with
  | .next t => some (errNumber t.err, t.res.toNat, t.c, ds.map t.reg)
  | _ => none

theorem test_mov : outcome [(1, 0x1234)] 0 0x00001201 [2] =
    some (0, 85, true, [0x1234]) := by decide +kernel
theorem test_clr : outcome [(7, 2 ^ 320 - 1)] 0 0x00000702 [7] =
    some (0, 85, true, [0]) := by decide +kernel
theorem test_getbit : outcome [(1, 2 ^ 319)] 319 0x00001003 [] =
    some (0, 1, true, []) := by decide +kernel
theorem test_getbit_2 : outcome [(1, 2 ^ 319)] 320 0x00001003 [0] =
    some (1, 85, true, [0]) := by decide +kernel
theorem test_setbit : outcome [(3, 0)] 319 0x00000304 [3] =
    some (0, 85, true, [2 ^ 319]) := by decide +kernel
theorem test_clrbit : outcome [(3, 7)] 1 0x00000305 [3] =
    some (0, 85, true, [5]) := by decide +kernel
theorem test_clrbit_2 : outcome [(3, 5)] 320 0x00000305 [3] =
    some (1, 85, true, [5]) := by decide +kernel
theorem test_ulen : outcome [(1, 0x100000000)] 0 0x00001006 [] =
    some (0, 2, true, []) := by decide +kernel
theorem test_ulen_2 : outcome [(1, 2 ^ 320 - 1)] 0 0x00001006 [] =
    some (0, 10, true, []) := by decide +kernel
theorem test_msb : outcome [(1, 0)] 0 0x00001007 [] =
    some (0, 0, true, []) := by decide +kernel
theorem test_msb_2 : outcome [(1, 2 ^ 319)] 0 0x00001007 [] =
    some (0, 320, true, []) := by decide +kernel
theorem test_shl : outcome [(2, 2 ^ 320 - 1)] 1 0x00002108 [1] =
    some (0, 85, true, [0xfffffffffffffffffffffffffffffffffffffffffffffffffffffffffffffffffffffffffffffffe]) := by decide +kernel
theorem test_shl_2 : outcome [(2, 2 ^ 320 - 1)] 320 0x00002108 [1] =
    some (0, 85, true, [0]) := by decide +kernel
theorem test_shr : outcome [(2, 2 ^ 320 - 1)] 319 0x00002109 [1] =
    some (0, 85, true, [1]) := by decide +kernel
theorem test_shr_2 : outcome [(2, 2 ^ 320 - 1)] 0xffffffff 0x00002109 [1] =
    some (0, 85, true, [0]) := by decide +kernel
theorem test_shl1 :
    outcome [(2, 0x80000000000000000000000000000000000000000000000000000000000000000000000000000001)]
      0 0x0000210A [1] =
    some (0, 85, true, [2]) := by decide +kernel
theorem test_shr1 : outcome [(2, 3)] 0 0x0000210B [1] =
    some (0, 85, true, [1]) := by decide +kernel
theorem test_shlw : outcome [(2, 2 ^ 320 - 1)] 0 0x0000220C [2] =
    some (0, 85, true, [0xffffffffffffffffffffffffffffffffffffffffffffffffffffffffffffffffffffffff00000000]) := by decide +kernel
theorem test_shlw_2 : outcome [(2, 0xdeadbeef)] 0 0x0000210C [1] =
    some (0, 85, true, [0xdeadbeef00000000]) := by decide +kernel
theorem test_shrw : outcome [(2, 0xdeadbeef00000001)] 0 0x0000210D [1] =
    some (0, 85, true, [0xdeadbeef]) := by decide +kernel
theorem test_cmp : outcome [(1, 5), (2, 7)] 0 0x0002100E [] =
    some (0, 0xffffffff, true, []) := by decide +kernel
theorem test_cmp_2 :
    outcome [(1, 0x1000000000000000000000000000000000000000000000000000000000000000000000000000),
      (2, 7)] 0 0x0002100E [] =
    some (0, 1, true, []) := by decide +kernel
theorem test_tstz : outcome [(4, 0)] 0 0x0000400F [] =
    some (0, 1, true, []) := by decide +kernel
theorem test_tstz_2 : outcome [(4, 2 ^ 319)] 0 0x0000400F [] =
    some (0, 0, true, []) := by decide +kernel
theorem test_tstone : outcome [(4, 1)] 0 0x00004010 [] =
    some (0, 1, true, []) := by decide +kernel
theorem test_tstone_2 : outcome [(4, 0x100000001)] 0 0x00004010 [] =
    some (0, 0, true, []) := by decide +kernel
theorem test_tstodd : outcome [(4, 0)] 0 0x00004011 [] =
    some (0, 0, true, []) := by decide +kernel
theorem test_tstodd_2 : outcome [(4, 0xeee74404d129949520704c5bf5814703)] 0 0x00004011 [] =
    some (0, 1, true, []) := by decide +kernel
theorem test_add : outcome [(1, 2 ^ 320 - 1), (2, 1)] 0 0x00021320 [3] =
    some (0, 85, true, [0]) := by decide +kernel
theorem test_add_2 : outcome [(1, 0xffffffff), (2, 1)] 0 0x00021320 [3] =
    some (0, 85, false, [0x100000000]) := by decide +kernel
theorem test_sub : outcome [(1, 0), (2, 1)] 0 0x00021321 [3] =
    some (0, 85, true, [2 ^ 320 - 1]) := by decide +kernel
theorem test_sub_2 : outcome [(1, 7), (2, 7)] 0 0x00021321 [3] =
    some (0, 85, false, [0]) := by decide +kernel
theorem test_addw : outcome [(1, 2 ^ 320 - 1)] 1 0x00001222 [2] =
    some (0, 85, true, [0]) := by decide +kernel
theorem test_addw_2 : outcome [(1, 0xffffffffffffffff)] 1 0x00001222 [2] =
    some (0, 85, false, [0x10000000000000000]) := by decide +kernel
theorem test_subw : outcome [(1, 3)] 0xffffffff 0x00001223 [2] =
    some (0, 85, true, [0xffffffffffffffffffffffffffffffffffffffffffffffffffffffffffffffffffffffff00000004]) := by decide +kernel
theorem test_subw_2 : outcome [(1, 0x100000000)] 1 0x00001223 [2] =
    some (0, 85, false, [0xffffffff]) := by decide +kernel
theorem test_mul : outcome [(1, 0xffffffff), (2, 0xffffffff)] 0 0x00021328 [3] =
    some (0, 85, true, [0xfffffffe00000001]) := by decide +kernel
theorem test_mul_2 : outcome [(1, 2 ^ 319), (2, 2)] 0 0x00021328 [3] =
    some (0, 85, true, [0]) := by decide +kernel
theorem test_sqr : outcome [(1, 2 ^ 160 - 1)] 0 0x00001229 [2] =
    some (0, 85, true, [0xfffffffffffffffffffffffffffffffffffffffe0000000000000000000000000000000000000001]) := by decide +kernel
theorem test_sqr_2 : outcome [(1, 2 ^ 160)] 0 0x00001229 [2] =
    some (1, 85, true, [0]) := by decide +kernel
theorem test_div : outcome [(1, 2 ^ 320 - 1), (2, 2 ^ 320 - 1)] 0 0x04021330 [3, 4] =
    some (0, 85, true, [1, 0]) := by decide +kernel
theorem test_div_2 : outcome [(1, 100), (2, 0)] 0 0x04021330 [3] =
    some (2, 85, true, [0]) := by decide +kernel
theorem test_divHac : outcome [(1, 2 ^ 320 - 1), (2, 0xffffffff)] 0 0x14021330 [3, 4] =
    some (0, 85, true, [0x1000000010000000100000001000000010000000100000001000000010000000100000001, 0]) := by decide +kernel
theorem test_divHac_2 : outcome [(1, 100), (2, 7)] 0 0x14021330 [3, 4] =
    some (0, 85, true, [14, 2]) := by decide +kernel
theorem test_addmod : outcome [(1, 5), (2, 6), (3, 7)] 0 0x00321438 [4] =
    some (0, 85, true, [4]) := by decide +kernel
theorem test_addmod_2 : outcome [(1, 7), (2, 6), (3, 7)] 0 0x00321438 [4] =
    some (7, 85, true, [0]) := by decide +kernel
theorem test_submod : outcome [(1, 2), (2, 5), (3, 7)] 0 0x00321439 [4] =
    some (0, 85, true, [4]) := by decide +kernel
theorem test_mod : outcome [(1, 100), (3, 7)] 0 0x0030143A [4] =
    some (0, 85, true, [2]) := by decide +kernel
theorem test_mod_2 : outcome [(1, 100), (3, 0)] 0 0x0030143A [4] =
    some (2, 85, true, [0]) := by decide +kernel
theorem test_modHac :
    outcome [(1, 2 ^ 320 - 1),
      (3, 0x1000000000000000000000000000000000000000000000000000000000000000000000000007)] 0 0x1030143A [4] =
    some (0, 85, true, [0xfffffffffffffffffffffffffffffffffffffffffffffffffffffffffffffffffffff900006]) := by decide +kernel
theorem test_mulmod : outcome [(1, 5), (2, 6), (3, 7)] 0 0x0032143B [4] =
    some (0, 85, true, [2]) := by decide +kernel
theorem test_mulmod_2 : outcome [(1, 5), (2, 6), (3, 8)] 0 0x0032143B [4] =
    some (0, 85, true, [6]) := by decide +kernel
theorem test_mulmodMw : outcome [(1, 5), (2, 6), (3, 7)] 0 0x1032143B [4] =
    some (0, 85, true, [2]) := by decide +kernel
theorem test_mulmodMw_2 : outcome [(1, 9), (2, 6), (3, 8)] 0 0x1032143B [4] =
    some (3, 85, true, [0]) := by decide +kernel
theorem test_mulmodMb : outcome [(1, 5), (2, 6), (3, 7)] 0 0x2032143B [4] =
    some (0, 85, true, [2]) := by decide +kernel
theorem test_mulmodMr :
    outcome [(1, 0xeee74404d129949520704c5bf5814702), (2, 0xeee74404d129949520704c5bf5814702),
      (3, 0xeee74404d129949520704c5bf5814703)] 0 0x3032143B [4] =
    some (0, 85, true, [1]) := by decide +kernel
theorem test_mulmodMr_2 : outcome [(1, 5), (2, 6), (3, 7)] 0 0x3032143B [4] =
    some (0, 85, true, [2]) := by decide +kernel
theorem test_mprime : outcome [(3, 0xeee74404d129949520704c5bf5814703)] 0 0x00300440 [4] =
    some (0, 85, true, [0xd65d2455]) := by decide +kernel
theorem test_mprime_2 : outcome [(3, 8)] 0 0x00300440 [4] =
    some (3, 85, true, [0]) := by decide +kernel
theorem test_mprimeR : outcome [(3, 0xeee74404d129949520704c5bf5814703)] 0 0x10300440 [4] =
    some (0, 85, true, [0xa5e0296c5b1d29d6b905ba8ad65d2455]) := by decide +kernel
theorem test_mprimeR_2 : outcome [(3, 0x100000001)] 0 0x10300440 [4] =
    some (0, 85, true, [0xffffffff]) := by decide +kernel
theorem test_mrconst : outcome [(3, 0xeee74404d129949520704c5bf5814703)] 0 0x00300441 [4] =
    some (0, 85, true, [0x1118bbfb2ed66b6adf8fb3a40a7eb8fd]) := by decide +kernel
theorem test_mrconst_2 : outcome [(3, 8)] 0 0x00300441 [4] =
    some (0, 85, true, [0]) := by decide +kernel
theorem test_mrconstR2 : outcome [(3, 0xeee74404d129949520704c5bf5814703)] 0 0x10300441 [4] =
    some (0, 85, true, [0x9da028b67ea8a4a71aac95df1ed0c46f]) := by decide +kernel
theorem test_mrconstR2_2 : outcome [(3, 7)] 0 0x10300441 [4] =
    some (0, 85, true, [2]) := by decide +kernel
theorem test_redc :
    outcome [(1, 0xeee74404d129949520704c5bf5814702ffffffffffffffffffffffffffffffff),
      (3, 0xeee74404d129949520704c5bf5814703), (5, 0xa5e0296c5b1d29d6b905ba8ad65d2455)] 0 0x05301442 [4] =
    some (0, 85, true, [0x541b042a09a5df7b42ed63f773d6f7c2]) := by decide +kernel
theorem test_redc_2 :
    outcome [(1, 0xeee74404d129949520704c5bf581470300000000000000000000000000000000),
      (3, 0xeee74404d129949520704c5bf5814703), (5, 0xa5e0296c5b1d29d6b905ba8ad65d2455)] 0 0x05301442 [4] =
    some (7, 85, true, [0]) := by decide +kernel
theorem test_montpro :
    outcome [(1, 0x123456789abcdef0fedcba987654321), (2, 0x1118bbfb2ed66b6adf8fb3a40a7eb8fd),
      (3, 0xeee74404d129949520704c5bf5814703), (5, 0xa5e0296c5b1d29d6b905ba8ad65d2455)] 0 0x05321443 [4] =
    some (0, 85, true, [0x123456789abcdef0fedcba987654321]) := by decide +kernel
theorem test_montpro_2 :
    outcome [(1, 0xeee74404d129949520704c5bf5814703), (2, 1), (3, 0xeee74404d129949520704c5bf5814703),
      (5, 0xa5e0296c5b1d29d6b905ba8ad65d2455)] 0 0x05321443 [4] =
    some (7, 85, true, [0]) := by decide +kernel
theorem test_montproB :
    outcome [(1, 0x123456789abcdef0fedcba987654321), (2, 0x112233445566778899aabbccddeeff),
      (3, 0xeee74404d129949520704c5bf5814703)] 0 0x15321443 [4] =
    some (0, 85, true, [0x7e90af949a9b00b65f42bac3078b0a0c]) := by decide +kernel
theorem test_montproB_2 : outcome [(1, 5), (2, 6), (3, 8)] 0 0x15321443 [4] =
    some (3, 85, true, [0]) := by decide +kernel
theorem test_montproRc :
    outcome [(1, 0x123456789abcdef0fedcba987654321), (2, 0x112233445566778899aabbccddeeff),
      (3, 0xeee74404d129949520704c5bf5814703), (5, 0xd65d2455)] 0 0x25321443 [4] =
    some (0, 85, true, [0x7e90af949a9b00b65f42bac3078b0a0c]) := by decide +kernel
theorem test_exp :
    outcome [(1, 2), (2, 2 ^ 320 - 1), (3, 0xeee74404d129949520704c5bf5814703)] 0 0x00321448 [4] =
    some (0, 85, true, [0x199040b9f2cc8b3ff6663c9f0bea4955]) := by decide +kernel
theorem test_exp_2 : outcome [(1, 7), (2, 3), (3, 7)] 0 0x00321448 [4] =
    some (7, 85, true, [0]) := by decide +kernel
theorem test_expK4 :
    outcome [(1, 0x123456789abcdef0fedcba987654321), (2, 0x10001),
      (3, 0xeee74404d129949520704c5bf5814703)] 0 0x10321448 [4] =
    some (0, 85, true, [0x8605327ded49ba36502cf36439d0bd53]) := by decide +kernel
theorem test_expK4_2 : outcome [(1, 4), (2, 13), (3, 497)] 0 0x10321448 [4] =
    some (0, 85, true, [445]) := by decide +kernel
theorem test_expMont :
    outcome [(1, 0x123456789abcdef0fedcba987654321), (2, 0x10001),
      (3, 0xeee74404d129949520704c5bf5814703)] 0 0x20321448 [4] =
    some (0, 85, true, [0x8605327ded49ba36502cf36439d0bd53]) := by decide +kernel
theorem test_expMont_2 : outcome [(1, 4), (2, 13), (3, 498)] 0 0x20321448 [4] =
    some (3, 85, true, [0]) := by decide +kernel
theorem test_gcd :
    outcome [(1, 0x1000000000000000000000000000000000000000000000000000000000000000000000000000),
      (2, 0x10000000000000000000000000)] 0 0x00021350 [3] =
    some (0, 85, true, [0x10000000000000000000000000]) := by decide +kernel
theorem test_gcd_2 : outcome [(1, 240), (2, 46)] 0 0x00021350 [3] =
    some (0, 85, true, [2]) := by decide +kernel
theorem test_bxgcd : outcome [(1, 240), (2, 46)] 0 0x04021351 [3] =
    some (0, 85, true, [2]) := by decide +kernel
theorem test_bxgcd_2 : outcome [(1, 240), (2, 46)] 0 0x03021351 [3] =
    some (6, 85, true, [0]) := by decide +kernel
theorem test_eea : outcome [(1, 240), (2, 46)] 0 0x04021352 [3, 4] =
    some (0, 85, true, [2, 37]) := by decide +kernel
theorem test_eea_2 : outcome [(1, 5), (2, 0)] 0 0x04021352 [3] =
    some (2, 85, true, [0]) := by decide +kernel
theorem test_inv :
    outcome [(1, 0x123456789abcdef0fedcba987654321), (3, 0xeee74404d129949520704c5bf5814703)] 0 0x00301453 [4] =
    some (0, 85, true, [0xc9e609aa5a5df12dff4ec72128898202]) := by decide +kernel
theorem test_inv_2 : outcome [(1, 6), (3, 9)] 0 0x00301453 [4] =
    some (3, 85, true, [0]) := by decide +kernel
theorem test_gfadd : outcome [(1, 83), (2, 202)] 0 0x00021360 [3] =
    some (0, 85, true, [153]) := by decide +kernel
theorem test_gfadd_2 : outcome [(1, 83)] 0 0x00011360 [3] =
    some (0, 85, true, [0]) := by decide +kernel
theorem test_gfmul : outcome [(1, 2 ^ 319), (2, 2)] 0 0x00021361 [3] =
    some (0, 85, true, [0]) := by decide +kernel
theorem test_gfmul_2 : outcome [(1, 83), (2, 202)] 0 0x00021361 [3] =
    some (0, 85, true, [0x3f7e]) := by decide +kernel
theorem test_gfdiv : outcome [(1, 0x3f7e), (2, 283)] 0 0x04021362 [3, 4] =
    some (0, 85, true, [61, 1]) := by decide +kernel
theorem test_gfdiv_2 : outcome [(1, 0x3f7e), (2, 0)] 0 0x04021362 [3] =
    some (2, 85, true, [0]) := by decide +kernel
theorem test_gfmod : outcome [(1, 0x1234), (3, 283)] 0 0x00301463 [4] =
    some (0, 85, true, [169]) := by decide +kernel
theorem test_gfmod_2 : outcome [(1, 0x1234), (3, 0)] 0 0x00301463 [4] =
    some (2, 85, true, [0]) := by decide +kernel
theorem test_gfmulmod : outcome [(1, 339), (2, 202), (3, 283)] 0 0x00321464 [4] =
    some (0, 85, true, [90]) := by decide +kernel
theorem test_gfmulmod_2 : outcome [(1, 83), (2, 202), (3, 283)] 0 0x00321464 [4] =
    some (0, 85, true, [1]) := by decide +kernel
theorem test_gfinv : outcome [(1, 202), (3, 283)] 0 0x00301465 [4] =
    some (0, 85, true, [83]) := by decide +kernel
theorem test_gfinv_2 : outcome [(1, 0), (3, 283)] 0 0x00301465 [4] =
    some (3, 85, true, [0]) := by decide +kernel

/-! ### The protocol and the window, from the vectors S and W of 95_test_vectors.md -/

/-- A STATUS read, at the reset state's ENGINE_BASE. -/
def readStatus : Turn := memRead 0 0x00C

/-- The words the first steps of a list of turns read, from a state. -/
def readsOf : Nat → State → List Word
  | 0, _ => []
  | n + 1, s =>
    match step s with
    | .next t => t.readData :: readsOf n t
    | _ => []

/-- S18: while EXP is pending a write to ARG and one to word 0 of V0 are dropped and set OVR; EXP completes. -/
theorem test_busy_writes_dropped :
    (match Sys2Proof.core.run 6 { loaded [(1, 2), (2, 3), (3, 7)] 0 with
        c := false
        turns := [memWrite 0 0x004 0x00321448, memWrite 0 0x008 7, memWrite 0 0x1000 5, readStatus, .engine, readStatus] } with
      | .next t => some (t.arg, t.reg 0, t.reg 4, t.readData)
      | _ => none) = some (0, 0, 1, 8) := by decide +kernel

/-- S18: STATUS reads 9 while busy. -/
theorem test_status_while_busy :
    readsOf 3 { State.reset with turns := [memWrite 0 0x004 0x00321448, memWrite 0 0x008 7, readStatus] } = [0, 0, 9] := by
  decide +kernel

/-- S19: a second CMD write before BUSY falls is dropped, and CMD keeps the first. -/
theorem test_second_command_dropped :
    (match Sys2Proof.core.run 3 { loaded [(1, 5)] 0 with
        turns := [memWrite 0 0x004 0x00001201, memWrite 0 0x004 0x00000102, .engine] } with
      | .next t => some (t.cmd, t.ovr, t.reg 1, t.reg 2)
      | _ => none) = some (0x00001201, true, 5, 5) := by decide +kernel

/-- S20: a soft reset discards the pending command, which writes nothing. -/
theorem test_soft_reset_discards :
    (match Sys2Proof.core.run 3 { loaded [(1, 2), (2, 3), (3, 7)] 9 with
        turns := [memWrite 0 0x004 0x00321448, memWrite 0 0x014 1, .engine] } with
      | .next t => some t
      | _ => none) = some State.reset := by decide +kernel

/-- S17: a STATUS write acts on bits 2 and 3 only. -/
theorem test_status_write :
    (match step { loaded [] 0 with err := .divisionByZero, anyErr := true, ovr := true, turns := [memWrite 0 0x00C 0xFFFFFFF7] } with
      | .next t => some (statusWord t)
      | _ => none) = some 0x0000002A := by decide +kernel

/-- S22 and S23: ID, and reserved offsets. -/
theorem test_id_and_reserved_reads :
    readsOf 4 { State.reset with turns := [memRead 0 0x000, memRead 0 0x018, memRead 0 0x1280, memRead 0 0xFFFFFC] } =
      [0x01100004, 0, 0, 0] := by decide +kernel

/-- S13: a failed command leaves C, and sets ANYERR. -/
theorem test_error_leaves_carry :
    outcome [(1, 9), (4, 3)] 0 0x0050143A [4] = some (2, 85, true, [3]) := by decide +kernel

/-- W1 and W2. -/
theorem test_operand_offsets :
    operandOffset 4 1 0 = 0x1028 ∧ operandOffset 4 1 1 = 0x102C ∧ operandOffset 4 15 9 = 0x127C ∧
    registerAt 4 0x127C = .operand 15 9 ∧ registerAt 4 0x1280 = .reserved := by decide

/-- W9: only word 0 changes. -/
theorem test_operand_write :
    (match step { loaded [(1, 2 ^ 320 - 1)] 0 with turns := [memWrite 0 0x1028 7] } with
      | .next t => some (t.reg 1)
      | _ => none) = some (2 ^ 320 - 2 ^ 32 + 7) := by decide +kernel

/-- W4 to W8. -/
theorem test_byte_buffers :
    fromBytesBE 4 [1, 2, 3, 4, 5] = .ok 0x0102030405 ∧ toBytesBE 4 0x0102030405 8 = .ok [0, 0, 0, 1, 2, 3, 4, 5] ∧
    toBytesBE 4 0x0102030405 4 = .error .invalidLength ∧ fromBytesBE 4 (List.replicate 41 0) = .error .invalidLength :=
  ⟨rfl, rfl, rfl, rfl⟩

/-- Byte lanes (20_memory.md R55). -/
theorem test_lanes : lane 0x04030201 0 = 1 ∧ lane 0x04030201 3 = 4 ∧ wordOfLanes 1 2 3 4 = 0x04030201 := by decide

/-- Assembler lines of 30_encoding.md R91, R93 and R94. -/
theorem test_assembler :
    assemble "DIV.HAC" [.reg 3, .reg 4, .reg 1, .reg 2] = some { instr := .divHac 3 4 1 2, imm := none } ∧
    assemble "SHL" [.reg 1, .reg 2, .imm 33] = some { instr := .shl 1 2, imm := some 33 } ∧
    assemble "INC" [.reg 1, .reg 2] = some { instr := .addw 1 2, imm := some 1 } ∧
    assemble "MOV" [.reg 1, .reg 16] = none := by decide +kernel

/-! ### Witnesses: states that meet the hypotheses of the statements -/

/-- The reset state with some operand registers loaded and a command pending with `arg` captured. -/
def waiting (regs : List (Reg × Nat)) (w arg : Word) : State :=
  { loaded regs arg with cmd := w, busy := true, pend := some { word := w, arg := arg } }

/-- A pending command, for the commands that read arg. -/
theorem witness_pending : (waiting [(1, 4)] 0x00001003 319).pend = some { word := 0x00001003, arg := 319 } := rfl

/-- GETBIT, SETBIT and CLRBIT: the last bit index runs, the next one fails. -/
theorem witness_bit_index :
    NoneFailing [(registerBits (waiting [] 0 319).kWords ≤ (319#32).toNat, ErrCode.invalidLength)] ∧
    FirstFailing [(registerBits (waiting [] 0 320).kWords ≤ (320#32).toNat, ErrCode.invalidLength)] .invalidLength := by
  constructor
  · simp only [NoneFailing, List.mem_singleton, forall_eq]; decide
  · exact .inl ⟨by decide, rfl⟩

/-- ULEN and MSB: the largest K, and the largest value of a register. -/
theorem witness_UlenMsbMeasureLength :
    validCapacity 65535 = true ∧ validCapacity (loaded [(1, 2 ^ 320 - 1)] 0).kWords = true ∧
    (loaded [(1, 2 ^ 320 - 1)] 0).reg 1 < registerLimit (loaded [(1, 2 ^ 320 - 1)] 0).kWords := by decide +kernel

/-- CMP: each of its three cases. -/
theorem witness_CmpThreeWay :
    (loaded [(1, 5), (2, 6)] 0).reg 1 < (loaded [(1, 5), (2, 6)] 0).reg 2 ∧
    (loaded [(1, 5), (2, 5)] 0).reg 1 = (loaded [(1, 5), (2, 5)] 0).reg 2 ∧
    (loaded [(1, 6), (2, 5)] 0).reg 2 < (loaded [(1, 6), (2, 5)] 0).reg 1 := by decide +kernel

/-- SQR: the longest operand that is squared, and the next value. -/
theorem witness_SqrSquaresExactlyOrFails :
    NoneFailing [(2 ^ (32 * (registerWords 4 / 2)) ≤ (loaded [(1, 2 ^ 160 - 1)] 0).reg 1, ErrCode.invalidLength)] ∧
    FirstFailing [(2 ^ (32 * (registerWords 4 / 2)) ≤ (loaded [(1, 2 ^ 160)] 0).reg 1, ErrCode.invalidLength)]
      .invalidLength := by
  constructor
  · simp only [NoneFailing, List.mem_singleton, forall_eq]; decide +kernel
  · exact .inl ⟨by decide +kernel, rfl⟩

/-- DIV, EEA and GFDIV: two destinations and a divisor that run; equal destinations, with a zero divisor
too; a zero divisor. -/
theorem witness_two_destinations :
    NoneFailing [((3 : Reg) = 4, ErrCode.aliasViolation), ((loaded [(1, 9), (2, 1)] 0).reg 2 = 0, .divisionByZero)] ∧
    FirstFailing [((3 : Reg) = 3, ErrCode.aliasViolation), ((loaded [(1, 9)] 0).reg 2 = 0, .divisionByZero)]
      .aliasViolation ∧
    FirstFailing [((3 : Reg) = 4, ErrCode.aliasViolation), ((loaded [(1, 9)] 0).reg 2 = 0, .divisionByZero)]
      .divisionByZero := by
  refine ⟨?_, .inl ⟨rfl, rfl⟩, .inr ⟨by decide, .inl ⟨by decide +kernel, rfl⟩⟩⟩
  simp only [NoneFailing, List.forall_mem_cons]
  exact ⟨by decide, by decide +kernel, by simp⟩

/-- BXGCD: different and equal destinations. -/
theorem witness_BxgcdGcdExactCoefficientFree :
    NoneFailing [((3 : Reg) = 4, ErrCode.aliasViolation)] ∧
    FirstFailing [((3 : Reg) = 3, ErrCode.aliasViolation)] .aliasViolation :=
  ⟨by simp only [NoneFailing, List.mem_singleton, forall_eq]; decide, .inl ⟨rfl, rfl⟩⟩

/-- MOD, GFMOD and GFMULMOD: the modulus 1, and the modulus 0. -/
theorem witness_zero_modulus :
    NoneFailing [((loaded [(3, 1)] 0).reg 3 = 0, ErrCode.divisionByZero)] ∧
    FirstFailing [((loaded [] 0).reg 3 = 0, ErrCode.divisionByZero)] .divisionByZero :=
  ⟨by simp only [NoneFailing, List.mem_singleton, forall_eq]; decide +kernel, .inl ⟨by decide +kernel, rfl⟩⟩

/-- ADDMOD, SUBMOD and MULMOD: the largest modulus with the largest operands, and each failing check, the
bound of each at its first failing value. -/
theorem witness_modular_runs :
    let s := loaded [(1, 2 ^ 128 - 2), (2, 2 ^ 128 - 2), (3, 2 ^ 128 - 1)] 0
    NoneFailing (modulusChecks s 3 ++ rangeChecks s 1 3 ++ rangeChecks s 2 3) := by
  simp only [NoneFailing, modulusChecks, rangeChecks, List.cons_append, List.nil_append, List.forall_mem_cons]
  exact ⟨by decide +kernel, by decide +kernel, by decide +kernel, by decide +kernel, by simp⟩

theorem witness_modular_fails :
    let zero := loaded [(1, 9)] 0
    let long := loaded [(1, 9), (3, 2 ^ 128)] 0
    let high := loaded [(1, 7), (3, 7)] 0
    let high2 := loaded [(1, 6), (2, 7), (3, 7)] 0
    FirstFailing (modulusChecks zero 3 ++ rangeChecks zero 1 3 ++ rangeChecks zero 2 3) .divisionByZero ∧
    FirstFailing (modulusChecks long 3 ++ rangeChecks long 1 3 ++ rangeChecks long 2 3) .invalidLength ∧
    FirstFailing (modulusChecks high 3 ++ rangeChecks high 1 3 ++ rangeChecks high 2 3) .operandOutOfRange ∧
    FirstFailing (modulusChecks high2 3 ++ rangeChecks high2 1 3 ++ rangeChecks high2 2 3) .operandOutOfRange :=
  ⟨.inl ⟨by decide +kernel, rfl⟩, .inr ⟨by decide +kernel, .inl ⟨by decide +kernel, rfl⟩⟩,
    .inr ⟨by decide +kernel, .inr ⟨by decide +kernel, .inl ⟨by decide +kernel, rfl⟩⟩⟩,
    .inr ⟨by decide +kernel, .inr ⟨by decide +kernel, .inr ⟨by decide +kernel, .inl ⟨by decide +kernel, rfl⟩⟩⟩⟩⟩

/-- The commands that need an odd modulus (MULMOD's and EXP's Montgomery variants, MPRIME, MONTPRO): an odd
modulus, and an even one, which is reported before an operand out of range. -/
theorem witness_odd_modulus :
    let s := loaded [(1, 2 ^ 128 - 2), (2, 2 ^ 128 - 2), (3, 2 ^ 128 - 1)] 0
    let even := loaded [(1, 9), (3, 8)] 0
    NoneFailing (oddModulusChecks s 3 ++ rangeChecks s 1 3 ++ rangeChecks s 2 3) ∧
    FirstFailing (oddModulusChecks even 3 ++ rangeChecks even 1 3 ++ rangeChecks even 2 3) .notInvertible := by
  refine ⟨?_, .inr ⟨by decide +kernel, .inr ⟨by decide +kernel, .inl ⟨by decide +kernel, rfl⟩⟩⟩⟩
  simp only [NoneFailing, oddModulusChecks, modulusChecks, rangeChecks, List.cons_append, List.nil_append,
    List.forall_mem_cons]
  exact ⟨by decide +kernel, by decide +kernel, by decide +kernel, by decide +kernel, by decide +kernel, by simp⟩

/-- The same checks without a range check (MPRIME, MRCONST) and with one (EXP). -/
theorem witness_modulus_alone :
    let s := loaded [(1, 2 ^ 128 - 2), (3, 2 ^ 128 - 1)] 0
    let even := loaded [(1, 3), (3, 2 ^ 128 - 2)] 0
    NoneFailing (oddModulusChecks s 3) ∧ NoneFailing (modulusChecks even 3) ∧
    NoneFailing (modulusChecks even 3 ++ rangeChecks even 1 3) ∧ NoneFailing (oddModulusChecks s 3 ++ rangeChecks s 1 3) ∧
    FirstFailing (oddModulusChecks even 3) .notInvertible ∧
    FirstFailing (modulusChecks (loaded [] 0) 3) .divisionByZero := by
  simp only [NoneFailing, oddModulusChecks, modulusChecks, rangeChecks, List.cons_append, List.nil_append,
    List.forall_mem_cons]
  refine ⟨⟨?_, ?_, ?_, by simp⟩, ⟨?_, ?_, by simp⟩, ⟨?_, ?_, ?_, by simp⟩, ⟨?_, ?_, ?_, ?_, by simp⟩,
    .inr ⟨?_, .inr ⟨?_, .inl ⟨?_, rfl⟩⟩⟩, .inl ⟨?_, rfl⟩⟩ <;> decide +kernel

/-- REDC: the largest T with a right n' and with a wrong one, and the first T out of range. -/
theorem witness_RedcDividesByRadix :
    let s := loaded [(1, 7 * 2 ^ 32 - 1), (3, 7), (5, 0x49249249)] 0
    let high := loaded [(1, 7 * 2 ^ 32), (3, 7), (5, 0x49249249)] 0
    NoneFailing (oddModulusChecks s 3 ++ [(s.reg 3 * 2 ^ (32 * ulen (s.reg 3)) ≤ s.reg 1, ErrCode.operandOutOfRange)]) ∧
    (s.reg 3 * (s.reg 5 % 2 ^ 32) + 1) % 2 ^ 32 = 0 ∧ (s.reg 3 * (s.reg 4 % 2 ^ 32) + 1) % 2 ^ 32 ≠ 0 ∧
    FirstFailing (oddModulusChecks high 3 ++
      [(high.reg 3 * 2 ^ (32 * ulen (high.reg 3)) ≤ high.reg 1, ErrCode.operandOutOfRange)]) .operandOutOfRange := by
  simp only [NoneFailing, oddModulusChecks, modulusChecks, List.cons_append, List.nil_append, List.forall_mem_cons]
  refine ⟨⟨?_, ?_, ?_, ?_, by simp⟩, ?_, ?_, .inr ⟨?_, .inr ⟨?_, .inr ⟨?_, .inl ⟨?_, rfl⟩⟩⟩⟩⟩ <;> decide +kernel

/-- MONTPRO with right n' in x[5] and a wrong one in x[4], and the hypotheses of the agreement of its
variants. -/
theorem witness_MontgomeryVariantsAgree :
    let s := loaded [(1, 5), (2, 6), (3, 7), (5, 0x49249249)] 0
    (s.reg 3 * (s.reg 5 % 2 ^ (32 * ulen (s.reg 3))) + 1) % 2 ^ (32 * ulen (s.reg 3)) = 0 ∧
    (s.reg 3 * (s.reg 4 % 2 ^ (32 * ulen (s.reg 3))) + 1) % 2 ^ (32 * ulen (s.reg 3)) ≠ 0 ∧
    (s.reg 3 * (s.reg 5 % 2 ^ 32) + 1) % 2 ^ 32 = 0 ∧ s.reg 3 % 2 = 1 := by decide +kernel

/-- INV: a value coprime to the modulus, and one that is not. -/
theorem witness_InvIsModularInverse :
    let s := loaded [(1, 10), (3, 7)] 0
    let t := loaded [(1, 6), (3, 9)] 0
    NoneFailing (modulusChecks s 3 ++ [(Nat.gcd (s.reg 1) (s.reg 3) ≠ 1, ErrCode.notInvertible)]) ∧
    FirstFailing (modulusChecks t 3 ++ [(Nat.gcd (t.reg 1) (t.reg 3) ≠ 1, ErrCode.notInvertible)]) .notInvertible := by
  simp only [NoneFailing, modulusChecks, List.cons_append, List.nil_append, List.forall_mem_cons]
  refine ⟨⟨?_, ?_, ?_, by simp⟩, .inr ⟨?_, .inr ⟨?_, .inl ⟨?_, rfl⟩⟩⟩⟩ <;> decide +kernel

/-- GFINV with p = 1: there is no common factor of degree at least 1. -/
theorem witness_GfinvIsPolynomialInverse :
    let s := loaded [(1, 7), (3, 1)] 0
    NoneFailing [(s.reg 3 = 0, ErrCode.divisionByZero),
      (∃ f x y, 2 ≤ msb f ∧ clmul x f = pmod (s.reg 1) (s.reg 3) ∧ clmul y f = s.reg 3, .notInvertible)] := by
  simp only [NoneFailing, List.forall_mem_cons]
  refine ⟨by decide +kernel, ?_, by simp⟩
  rintro ⟨f, x, y, hf, -, hy⟩
  have hy1 : clmul y f = 1 := hy
  have hy0 : y ≠ 0 := by rintro rfl; simp at hy1
  have hf0 : f ≠ 0 := by rintro rfl; simp [msb] at hf
  have h := msb_clmul hy0 hf0
  rw [hy1] at h
  have := msb_pos hy0
  have h1 : msb 1 = 1 := rfl
  omega

/-- GFINV with p = t² + 1 and u = t + 1: the common factor is u itself. -/
theorem witness_GfinvFails :
    let s := loaded [(1, 3), (3, 5)] 0
    FirstFailing [(s.reg 3 = 0, ErrCode.divisionByZero),
      (∃ f x y, 2 ≤ msb f ∧ clmul x f = pmod (s.reg 1) (s.reg 3) ∧ clmul y f = s.reg 3, .notInvertible)] .notInvertible :=
  .inr ⟨by decide +kernel, .inl ⟨⟨3, 1, 3, by decide +kernel, by decide +kernel, by decide +kernel⟩, rfl⟩⟩

/-- A command word that ends with an error. -/
theorem witness_ErrorsArePrecise :
    ∃ t, execWord 0x0030143A (loaded [(1, 9)] 0) = .next t ∧ t.err ≠ .ok := ⟨_, rfl, by decide +kernel⟩

/-- Commands for the frames of every command: one that writes neither C nor RES, one that writes RES; and
registers in range. -/
theorem witness_frames :
    (∃ t, exec (.mov 1 2) (loaded [(2, 3)] 0) = .next t) ∧ writesC (.mov 1 2) = false ∧ writesRes (.mov 1 2) = false ∧
    (∃ t, exec (.tstz 2) (loaded [(2, 3)] 0) = .next t) ∧ writesRes (.tstz 2) = true ∧
    RegsInRange (loaded [(2, 2 ^ 320 - 1)] 0) :=
  ⟨⟨_, rfl⟩, rfl, rfl, ⟨_, rfl⟩, rfl, by unfold RegsInRange; decide +kernel⟩

/-- EXP.MONT with an odd modulus; SQR at its longest operand. -/
theorem witness_VariantsAgree :
    (loaded [(3, 497)] 0).reg 3 % 2 = 1 ∧
    (loaded [(1, 2 ^ 160 - 1)] 0).reg 1 < 2 ^ (32 * ((loaded [(1, 2 ^ 160 - 1)] 0).kWords + 1)) := by decide +kernel

/-- A word that decodes; a legal word; illegal words by RSV, by OPC, and by the first VAR above a row's. -/
theorem witness_words :
    decode 0x43211201 = .error .undefinedVariant ∧ decode 0x0F0F1201 = .ok (.mov 2 1) ∧
    LegalWord 0x0F0F1201 ∧ ¬ LegalWord 0x80001201 ∧ ¬ LegalWord 0x00000012 ∧ ¬ LegalWord 0x4032143B ∧
    LegalWord 0x3032143B := by
  refine ⟨rfl, rfl, ?_⟩
  unfold LegalWord
  decide +kernel

/-- The fields and the row of the word of MULMOD.MR. -/
theorem witness_LegalWordsExecuteTheirRow :
    (4 : Reg).val = bits (0x3032143B#32).toNat 8 4 ∧ (1 : Reg).val = bits (0x3032143B#32).toNat 12 4 ∧
    (2 : Reg).val = bits (0x3032143B#32).toNat 16 4 ∧ (3 : Reg).val = bits (0x3032143B#32).toNat 20 4 ∧
    (0 : Reg).val = bits (0x3032143B#32).toNat 24 4 ∧ 0x3032143B#32 &&& 0xF00000FF#32 = 0x3000003B#32 := by decide

/-- A pending command that decodes, with the engine's turn next and with no turn left; a pending word that
does not decode; and no pending command. -/
theorem witness_StepRunsPendingCommand :
    validBuild (waiting [] 0x00001201 0) = true ∧
    (waiting [] 0x00001201 0).pend = some { word := 0x00001201, arg := 0 } ∧ decode 0x00001201 = .ok (.mov 2 1) ∧
    (waiting [] 0x00001201 0).turns = [] ∧
    { waiting [] 0x00001201 0 with turns := [.engine] }.turns = .engine :: [] ∧
    (waiting [] 0x80001201 0).pend = some { word := 0x80001201, arg := 0 } ∧
    (∀ i, decode 0x80001201 ≠ .ok i) ∧ State.reset.pend = none ∧ validBuild State.reset = true :=
  ⟨by decide +kernel, rfl, rfl, rfl, rfl, rfl, fun _ h => (nomatch h), rfl, by decide +kernel⟩

/-- STATUS while idle with each error code; the numbers are those of 60_exceptions.md R240. -/
theorem test_error_numbers :
    [ErrCode.ok, .invalidLength, .divisionByZero, .notInvertible, .illegalCommand, .aliasViolation, .operandOutOfRange].map
      (fun e => statusWord { State.reset with err := e }) = [0x00, 0x10, 0x20, 0x30, 0x50, 0x60, 0x70] := by decide

/-- Host turns in an idle state: a write to CMD, to ARG, to the last operand word, to STATUS, to CTRL with
bit 0 = 1 and 0; a read; and reserved offsets at both ends of both ranges. -/
theorem witness_host_turns :
    let idle := fun t : Turn => { loaded [] 0 with turns := [t] }
    validBuild (loaded [] 0) = true ∧ (loaded [] 0).busy = false ∧
    (idle (memWrite 0 0x004 7)).turns = [.host (.write 4 ((loaded [] 0).base + 0x004) 7)] ∧
    (idle (memWrite 0 0x008 7)).turns = [.host (.write 4 ((loaded [] 0).base + 0x008) 7)] ∧
    (idle (memWrite 0 0x127C 7)).turns = [.host (.write 4 ((loaded [] 0).base + operandOffset 4 15 9) 7)] ∧
    (idle (memWrite 0 0x00C 7)).turns = [.host (.write 4 ((loaded [] 0).base + 0x00C) 7)] ∧
    (idle (memWrite 0 0x014 1)).turns = [.host (.write 4 ((loaded [] 0).base + 0x014) 1)] ∧
    (1#32).getLsbD 0 = true ∧ (6#32).getLsbD 0 = false ∧ (idle .powerOn).turns = [.powerOn] ∧
    (∀ off ∈ [0x000, 0x004, 0x008, 0x00C, 0x010, 0x014, 0x018, 0xFFC, 0x1000, 0x127C, 0x1280, 0xFFFFFC],
      off < 2 ^ 24 ∧ off % 4 = 0 ∧ (idle (memRead 0 off)).turns = [.host (.read 4 ((loaded [] 0).base + off))]) ∧
    0x1000 + 64 * registerWords 4 = 0x1280 ∧ (9 : Nat) < registerWords 4 := by decide +kernel

/-- A busy state with each kind of write that is dropped. -/
theorem witness_BusyWritesAreDropped :
    let busy := fun off : Nat => { waiting [] 0x00001201 0 with turns := [memWrite 0 off 5] }
    (busy 0).busy = true ∧ validBuild (busy 0) = true ∧
    (∀ off ∈ [0x004, 0x008, operandOffset 4 0 0, operandOffset 4 15 9],
      (busy off).turns = [.host (.write 4 ((busy off).base + off) 5)]) := by decide +kernel

/-- Accesses that are not admitted: a width, an alignment, the last byte of the window, the first address
above it, an address below it; and builds out of range, with each kind of turn and with none. -/
theorem witness_WrongAccessesStop :
    let s := fun a : Access => { State.resetWith 4 0x3000000 [.host a] 0 0 with arg := 1 }
    validBuild (s (.read 2 0x3000000)) = true ∧ (s (.read 2 0x3000000)).base ≤ 0x3000000 ∧ (2 : Nat) ≠ 4 ∧
    0x3FFFFFF < (s (.read 4 0x3FFFFFF)).base + 2 ^ 24 ∧ 0x3FFFFFF % 4 ≠ 0 ∧
    (s (.write 4 0x4000000 1)).base + 2 ^ 24 ≤ 0x4000000 ∧ 0x2FFFFFC < (s (.write 4 0x2FFFFFC 1)).base ∧
    (∀ turns ∈ [[Turn.host (.read 4 0)], [.engine], [.powerOn], []],
      validBuild (State.resetWith 0 0 turns 0 0) = false ∧ validBuild (State.resetWith 65536 0 turns 0 0) = false ∧
      validBuild (State.resetWith 4 4 turns 0 0) = false) := by decide +kernel

/-- A state of the invariant in which a command is pending and the host polls twice. -/
theorem witness_AcceptedCommandCompletes :
    Inv { waiting [(1, 5)] 0x00001201 0 with turns := List.replicate 2 (memRead 0 0x00C) } where
  build := by decide +kernel
  range := by unfold RegsInRange; decide +kernel
  busy_iff := rfl
  latch := by intro p hp; cases hp; exact ⟨rfl, rfl⟩
  err_defined := by decide +kernel

/-- An idle state of the invariant that is about to load the largest value into V15; and a step of it. -/
theorem witness_LoadvLoadsTheValue :
    let s := { loaded [(15, 5)] 0 with turns := (HostLine.loadv 15 (2 ^ 320 - 1)).turns 4 0 }
    Inv s ∧ s.busy = false ∧ 2 ^ 320 - 1 < 2 ^ registerBits s.kWords ∧ ∃ t, step s = .next t := by
  refine ⟨⟨?_, ?_, rfl, ?_, ?_⟩, rfl, ?_, ?_⟩
  · decide +kernel
  · unfold RegsInRange; decide +kernel
  · intro p hp; cases hp
  · decide +kernel
  · decide +kernel
  · exact ⟨_, rfl⟩

/-- Builds at both ends of the range of K. -/
theorem witness_ResetMeetsInvariant :
    validCapacity 1 = true ∧ validCapacity 65535 = true ∧ validBase 0x3000000 = true := by decide

/-- Byte buffers of the full capacity, 4N bytes, and of one byte more; the largest value of L bytes, and the
next. -/
theorem witness_ByteBufferRoundTrip :
    (List.replicate 40 (255 : Byte)).length ≤ 4 * registerWords 4 ∧
    4 * registerWords 4 < (List.replicate 41 (255 : Byte)).length ∧
    40 ≤ 4 * registerWords 4 ∧ 2 ^ 320 - 1 < 2 ^ (8 * 40) ∧ 4 * registerWords 4 < 41 ∧ 2 ^ (8 * 4) ≤ 0x100000000 := by
  decide +kernel

end Sys2Proof.Tests
end

section
/-! Commands keep every register in range (00_scope.md R9, 10_state.md R21). -/

namespace Sys2Proof.Machine

/-- Every state a command of a given shape can end in: the state before it, completed with the error its
checks raise, or its results, completed with Ok. -/
theorem Shape.next_cases {i : Instr} {s r t : State} {c : Option ErrCode} (shape : Shape i s c r)
    (h : exec i s = .next t) :
    (∃ e, c = some e ∧ t = s.complete e) ∨ (c = none ∧ t = r.complete .ok) := by
  rw [shape.eq] at h
  obtain ⟨e, hc, he⟩ | ⟨hc, he⟩ := checked_cases c s r
  · exact .inl ⟨e, hc, Host.Outcome.next.inj (h.symm.trans he)⟩
  · exact .inr ⟨hc, Host.Outcome.next.inj (h.symm.trans he)⟩

/-- Settles O36: an error leaves the registers of the state before it, and the results of a command whose
checks pass are in range. -/
theorem commandsKeepRegistersInRange : Obligations.CommandsKeepRegistersInRange := by
  intro i s t hs h
  obtain ⟨c, r, shape⟩ := exec_shape i s
  obtain ⟨e, -, rfl⟩ | ⟨hc, rfl⟩ := shape.next_cases h
  · exact regsInRange_complete hs
  · exact regsInRange_complete (shape.range hs hc)

end Sys2Proof.Machine
end

section
/-! What one step can do, said once: which turn it takes and what an access of the host acts on. -/

namespace Sys2Proof.Machine

/-- A turn is taken in the state without it (assumption 4). -/
theorem step_turn {s : State} {turn : Turn} {rest : List Turn} (hv : validBuild s = true)
    (ht : s.turns = turn :: rest) : step s = takeTurn turn { s with turns := rest } := by
  simp [step, hv, nextTurn, ht]

/-- All that a step to a next state can be: in an admitted build, the first turn to come, or the engine's
move where none is left. -/
theorem step_next_cases {s t : State} (h : step s = .next t) :
    validBuild s = true ∧
    ((∃ turn rest, s.turns = turn :: rest ∧ takeTurn turn { s with turns := rest } = .next t) ∨
      (s.turns = [] ∧ engineMove s = .next t)) := by
  by_cases hv : validBuild s = true
  · refine ⟨hv, ?_⟩
    rcases ht : s.turns with _ | ⟨turn, rest⟩
    · exact .inr ⟨rfl, step_no_turns hv ht ▸ h⟩
    · exact .inl ⟨turn, rest, rfl, step_turn hv ht ▸ h⟩
  · rw [step_invalidBuild (Bool.eq_false_iff.2 hv)] at h
    cases h

/-- An access of the host that ends in a next state was admitted, at an offset of the window, and has acted
on the register there (20_memory.md R50, R56). -/
theorem hostAccess_next_inv {a : Access} {s t : State} (h : hostAccess a s = .next t) :
    ∃ off, offsetOf s.base a.place.2 = some off ∧ admittedAccess a.place.1 off = true ∧
      t = a.perform s (registerAt s.kWords off) := by
  unfold hostAccess at h
  split at h
  · cases h
  · next off hoff =>
    split at h
    · next hadm => exact ⟨off, hoff, hadm, (Host.Outcome.next.inj h).symm⟩
    · cases h

/-- The step that takes an aligned 32-bit read inside the window (20_memory.md R56, R58). -/
theorem step_read {s : State} {rest : List Turn} {off : Nat} (hv : validBuild s = true)
    (ht : s.turns = .host (.read 4 (s.base + off)) :: rest) (ho : off < 2 ^ 24) (h4 : off % 4 = 0) :
    step s = .next (hostRead { s with turns := rest } (registerAt s.kWords off)) :=
  step_host hv ht rfl ho h4

/-- The step that takes an aligned 32-bit write inside the window (20_memory.md R56, R58). -/
theorem step_write {s : State} {v : Word} {rest : List Turn} {off : Nat} (hv : validBuild s = true)
    (ht : s.turns = .host (.write 4 (s.base + off) v) :: rest) (ho : off < 2 ^ 24) (h4 : off % 4 = 0) :
    step s = .next (hostWrite { s with turns := rest } (registerAt s.kWords off) v) :=
  step_host hv ht rfl ho h4

/-- The step that takes a read of word j of Vi (20_memory.md R52). -/
theorem step_read_operand {s : State} {rest : List Turn} {i : Reg} {j : Nat} (hv : validBuild s = true)
    (ht : s.turns = .host (.read 4 (s.base + operandOffset s.kWords i j)) :: rest) (hj : j < registerWords s.kWords) :
    step s = .next (hostRead { s with turns := rest } (.operand i j)) := by
  obtain ⟨ho, h4⟩ := operandOffset_lt (validCapacity_of_validBuild hv) i hj
  rw [step_read hv ht ho h4, registerAt_operandOffset i hj]

/-- The step that takes a write of word j of Vi (20_memory.md R52). -/
theorem step_write_operand {s : State} {v : Word} {rest : List Turn} {i : Reg} {j : Nat} (hv : validBuild s = true)
    (ht : s.turns = .host (.write 4 (s.base + operandOffset s.kWords i j) v) :: rest)
    (hj : j < registerWords s.kWords) :
    step s = .next (hostWrite { s with turns := rest } (.operand i j) v) := by
  obtain ⟨ho, h4⟩ := operandOffset_lt (validCapacity_of_validBuild hv) i hj
  rw [step_write hv ht ho h4, registerAt_operandOffset i hj]

/-! ### What an access does to the register it selects -/

theorem unlessBusy_of_busy {s written : State} (h : s.busy = true) : unlessBusy s written = { s with ovr := true } :=
  if_pos h

theorem unlessBusy_of_idle {s written : State} (h : s.busy = false) : unlessBusy s written = written :=
  if_neg (by simp [h])

/-- A read whose value the spec fixes returns that value (20_memory.md R52). -/
theorem hostRead_of_some {s : State} {r : WindowReg} {v : Word} (h : readWindow s r = some v) :
    hostRead s r = { s with readData := v } := by
  simp only [hostRead, h]

theorem readWindow_res {s : State} (h : s.busy = false) : readWindow s .res = some s.res := by
  simp [readWindow, h]

theorem readWindow_operand {s : State} (h : s.busy = false) (i : Reg) (j : Nat) :
    readWindow s (.operand i j) = some (wordOf (s.reg i) j) := by
  simp [readWindow, h]

/-- A STATUS write clears by bits 2 and 3 of the value (10_state.md R25). -/
theorem writeStatus_eq (s : State) (v : Word) :
    writeStatus s v = { s with anyErr := s.anyErr && !v.getLsbD 2, ovr := s.ovr && !v.getLsbD 3 } := by
  simp only [writeStatus, bits_one]

/-- A CTRL write resets the engine by bit 0 of the value (10_state.md R28). -/
theorem writeCtrl_eq (s : State) (v : Word) : writeCtrl s v = if v.getLsbD 0 then s.resetEngine else s := by
  rw [writeCtrl, ← bits_one]
  simp only [beq_iff_eq]

/-- The fields of the ID word (10_state.md R29). -/
theorem idWord_fields {k : Nat} (hk : validCapacity k = true) :
    bits (idWord k).toNat 0 16 = k ∧ bits (idWord k).toNat 16 8 = 16 ∧ bits (idWord k).toNat 24 8 = 1 := by
  have hk' : k ≤ 65535 := by simp [validCapacity] at hk; exact hk.2
  have hid : (idWord k).toNat = k + 2 ^ 16 * 16 + 2 ^ 24 * 1 := by
    rw [idWord, BitVec.toNat_ofNat]
    exact Nat.mod_eq_of_lt (by simp only [Config.nreg, Config.revision]; omega)
  simp only [bits, hid]
  omega

end Sys2Proof.Machine
end

section
/-! The invariant of the machine, held at reset and kept by every step (10_state.md R21, R33-R35). -/

namespace Sys2Proof.Machine

/-! ### What keeps the invariant -/

/-- The invariant says nothing of ANYERR, OVR, the turns to come, the value read and the count of free
values. -/
theorem Inv.of_unmentioned {s : State} (h : Inv s) (anyErr ovr : Bool) (turns : List Turn) (readData : Word)
    (freeCount : Nat) :
    Inv { s with anyErr := anyErr, ovr := ovr, turns := turns, readData := readData, freeCount := freeCount } where
  build := h.build
  range := h.range
  busy_iff := h.busy_iff
  latch := h.latch
  err_defined := h.err_defined

/-- While BUSY = 0 the latch is empty. -/
theorem Inv.pend_eq_none {s : State} (h : Inv s) (hb : s.busy = false) : s.pend = none := by
  simpa [hb] using h.busy_iff

/-- A completed command has the invariant: its latch is empty, whatever it held before. -/
theorem inv_complete {s : State} {e : ErrCode} (hv : validBuild s = true) (hr : RegsInRange s)
    (he : e ≠ .invariantViolation) : Inv (s.complete e) where
  build := hv
  range := regsInRange_complete hr
  busy_iff := rfl
  latch _ hp := nomatch hp
  err_defined := he

/-- The reset state of every admitted build (10_state.md R38). -/
theorem inv_resetWith {k base : Nat} (hk : validCapacity k = true) (hb : validBase base = true) (turns : List Turn)
    (readData : Word) (freeCount : Nat) : Inv (State.resetWith k base turns readData freeCount) where
  build := by rw [validBuild, Bool.and_eq_true]; exact ⟨hk, hb⟩
  range r := by
    have hz : (State.resetWith k base turns readData freeCount).reg r = 0 :=
      State.resetEngine_reg (State.resetWith k base turns readData freeCount) r
    rw [hz]
    exact registerLimit_pos k
  busy_iff := rfl
  latch _ hp := nomatch hp
  err_defined := nofun

theorem Inv.resetEngine {s : State} (h : Inv s) : Inv s.resetEngine := by
  have hb := h.build
  rw [validBuild, Bool.and_eq_true] at hb
  exact inv_resetWith hb.1 hb.2 ..

/-- Acceptance fills the latch with CMD and ARG as they then stand (10_state.md R35). -/
theorem Inv.accept {s : State} (h : Inv s) (w : Word) : Inv (s.accept w) where
  build := h.build
  range := h.range
  busy_iff := rfl
  latch p hp := by cases hp; exact ⟨rfl, rfl⟩
  err_defined := h.err_defined

/-- An ARG write while BUSY = 0 meets an empty latch (10_state.md R33). -/
theorem Inv.setArg {s : State} (h : Inv s) (hb : s.busy = false) (v : Word) : Inv { s with arg := v } where
  build := h.build
  range := h.range
  busy_iff := h.busy_iff
  latch _ hp := nomatch (h.pend_eq_none hb).symm.trans hp
  err_defined := h.err_defined

/-- An operand write puts one of the N words of a register (10_state.md R21, 20_memory.md R52). -/
theorem Inv.writeOperand {s : State} (h : Inv s) (i : Reg) {j : Nat} (hj : j < registerWords s.kWords) (v : Word) :
    Inv (writeOperand s i j v) where
  build := h.build
  range := regsInRange_setReg h.range (withWord_lt_limit (h.range i) hj)
  busy_iff := h.busy_iff
  latch := h.latch
  err_defined := h.err_defined

/-! ### Every turn keeps the invariant -/

theorem Inv.hostRead {s : State} (h : Inv s) (r : WindowReg) : Inv (hostRead s r) := by
  obtain ⟨v, n, hr⟩ := hostRead_spec s r
  rw [hr]
  exact h.of_unmentioned ..

theorem Inv.hostWrite {s : State} (h : Inv s) {off : Nat} (v : Word) :
    Inv (hostWrite s (registerAt s.kWords off) v) := by
  obtain hw | ⟨-, hw⟩ | ⟨-, -, hw⟩ | ⟨hb, -, hw⟩ | ⟨i, j, -, hr, hw⟩ | ⟨-, hw⟩ | ⟨-, hw⟩ :=
    hostWrite_cases s (registerAt s.kWords off) v <;> rw [hw]
  · exact h
  · exact h.of_unmentioned ..
  · exact h.accept v
  · exact h.setArg hb v
  · exact h.writeOperand i (registerAt_operand_lt hr) v
  · exact h.of_unmentioned ..
  · exact h.resetEngine

theorem Inv.perform {s : State} (h : Inv s) (a : Access) (off : Nat) :
    Inv (a.perform s (registerAt s.kWords off)) := by
  cases a with
  | read _ _ => exact h.hostRead _
  | write _ _ v => exact h.hostWrite v

/-- A command ends in a completed state of the same build, with its registers in range and an error of its
own checks. -/
theorem Inv.exec {s t : State} (h : Inv s) {i : Instr} (ht : exec i s = .next t) : Inv t := by
  obtain ⟨c, r, shape⟩ := exec_shape i s
  obtain ⟨e, hc, rfl⟩ | ⟨hc, rfl⟩ := shape.next_cases ht
  · exact inv_complete h.build h.range (shape.good e hc).2.1
  · obtain ⟨hk, hbase, -⟩ := shape.host
    have hv : validBuild r = true := by rw [validBuild, hk, hbase]; exact h.build
    exact inv_complete hv (shape.range h.range hc) (by decide)

theorem Inv.engineMove {s t : State} (h : Inv s) (ht : engineMove s = .next t) : Inv t := by
  rcases hp : s.pend with _ | p
  · rw [engineMove_none hp] at ht
    cases ht
    exact h
  · by_cases hd : ∃ i, decode p.word = .ok i
    · obtain ⟨i, hd⟩ := hd
      exact h.exec (engineMove_decoded hp hd ▸ ht)
    · rw [engineMove_illegal hp (not_exists.1 hd)] at ht
      cases ht
      exact inv_complete h.build h.range (by decide)

theorem Inv.takeTurn {s t : State} (h : Inv s) {turn : Turn} (ht : takeTurn turn s = .next t) : Inv t := by
  cases turn with
  | host a =>
    obtain ⟨off, -, -, rfl⟩ := hostAccess_next_inv ht
    exact h.perform a off
  | engine => exact h.engineMove ht
  | powerOn =>
    cases ht
    exact h.resetEngine

/-- Settles O56: a step takes one turn, or is the engine's move, and each keeps the invariant. -/
theorem stepKeepsInvariant : Obligations.StepKeepsInvariant := by
  intro s t h ht
  obtain ⟨-, ⟨turn, rest, -, hturn⟩ | ⟨-, hmove⟩⟩ := step_next_cases ht
  · exact (h.of_unmentioned s.anyErr s.ovr rest s.readData s.freeCount).takeTurn hturn
  · exact h.engineMove hmove

/-- Settles O57: both are reset states of an admitted build. -/
theorem resetMeetsInvariant : Obligations.ResetMeetsInvariant :=
  ⟨inv_resetWith (by decide) (by decide) .., fun _ _ _ hk hb => inv_resetWith hk hb ..⟩

end Sys2Proof.Machine
end

section
/-! The flags, RES, the host's registers and reset: the rest of 10_state.md. -/

namespace Sys2Proof.Machine

/-! ### What commands leave -/

/-- Settles O33: an error leaves C, and so do the results of a command that does not write it. -/
theorem onlyAdderWritesCarry : Obligations.OnlyAdderWritesCarry := by
  intro i s t h hw
  obtain ⟨c, r, shape⟩ := exec_shape i s
  obtain ⟨e, -, rfl⟩ | ⟨-, rfl⟩ := shape.next_cases h
  · rfl
  · exact shape.carry hw

/-- The commands that write RES have no destination register (30_encoding.md R86). -/
theorem destinations_of_writesRes : ∀ {i : Instr}, writesRes i = true → destinations i = []
  | .getbit _, _ | .ulen _, _ | .msb _, _ | .cmp _ _, _ | .tstz _, _ | .tstone _, _ | .tstodd _, _ => rfl

/-- Settles O34: an error leaves RES and the registers; results keep RES where the command does not write
it, and every register but its destinations, of which a command that writes RES has none. -/
theorem onlyScalarCommandsWriteRes : Obligations.OnlyScalarCommandsWriteRes := by
  intro i s t h
  obtain ⟨c, r, shape⟩ := exec_shape i s
  obtain ⟨e, -, rfl⟩ | ⟨-, rfl⟩ := shape.next_cases h
  · exact ⟨fun _ => rfl, fun _ _ => rfl⟩
  · refine ⟨shape.scalar, fun hw reg => shape.regs reg ?_⟩
    rw [destinations_of_writesRes hw]
    exact List.not_mem_nil

/-! ### The host's writes -/

/-- Settles O46: each of these writes is one that acts only while BUSY = 0. -/
theorem busyWritesAreDropped : Obligations.BusyWritesAreDropped := by
  rintro s off v rest hv hb (rfl | rfl | ⟨i, j, hj, rfl⟩) ht
  · rw [step_write hv ht (by decide) rfl]
    exact congrArg Host.Outcome.next (unlessBusy_of_busy hb)
  · rw [step_write hv ht (by decide) rfl]
    exact congrArg Host.Outcome.next (unlessBusy_of_busy hb)
  · rw [step_write_operand hv ht hj]
    exact congrArg Host.Outcome.next (unlessBusy_of_busy hb)

/-- Settles O44: while BUSY = 0 the write acts. -/
theorem argWriteSetsArg : Obligations.ArgWriteSetsArg := by
  intro s w rest hv hb ht
  rw [step_write hv ht (by decide) rfl]
  exact congrArg Host.Outcome.next (unlessBusy_of_idle hb)

/-- Settles O45: while BUSY = 0 the write acts, and its effect is the acceptance. -/
theorem cmdWriteIsAccepted : Obligations.CmdWriteIsAccepted := by
  intro s w rest hv hb ht
  rw [step_write hv ht (by decide) rfl]
  exact congrArg Host.Outcome.next (unlessBusy_of_idle hb)

/-- Settles O50: BUSY is not asked. -/
theorem statusWriteClearsStickyBits : Obligations.StatusWriteClearsStickyBits := by
  intro s v rest hv ht
  rw [step_write hv ht (by decide) rfl]
  exact congrArg Host.Outcome.next (writeStatus_eq _ v)

/-! ### The host's reads -/

/-- The ERR field of STATUS holds the number of each code (60_exceptions.md R240). -/
theorem statusWord_errField (s : State) :
    ∀ code ∈ [(ErrCode.ok, 0), (.invalidLength, 1), (.divisionByZero, 2), (.notInvertible, 3),
        (.invariantViolation, 4), (.illegalCommand, 5), (.aliasViolation, 6), (.operandOutOfRange, 7)],
      s.err = code.1 → bits (statusWord s).toNat 4 4 = code.2 := by
  obtain ⟨-, -, -, -, herr, -⟩ := statusWord_fields s
  rw [herr]
  cases s.err <;> decide

/-- Settles O48: at each offset the read returns what `readWindow` fixes, and the fields of ID and STATUS are
in their places. -/
theorem readsReturnRegisters : Obligations.ReadsReturnRegisters := by
  intro s off rest hv ht
  refine ⟨?id, ?cmd, ?arg, ?status, ?res, ?ctrl, ?operand⟩
  case id =>
    rintro rfl
    exact ⟨_, step_read hv ht (by decide) rfl, rfl, idWord_fields (validCapacity_of_validBuild hv)⟩
  case cmd => rintro rfl; exact step_read hv ht (by decide) rfl
  case arg => rintro rfl; exact step_read hv ht (by decide) rfl
  case status =>
    rintro rfl
    obtain ⟨hbusy, hc, hany, hovr, -, hhigh⟩ := statusWord_fields s
    exact ⟨_, step_read hv ht (by decide) rfl, rfl, hbusy, hc, hany, hovr, hhigh, statusWord_errField s⟩
  case res =>
    rintro rfl hb
    rw [step_read hv ht (by decide) rfl]
    exact congrArg Host.Outcome.next (hostRead_of_some (readWindow_res hb))
  case ctrl => rintro rfl; exact step_read hv ht (by decide) rfl
  case operand =>
    rintro i j hb hj rfl
    rw [step_read_operand hv ht hj]
    exact congrArg Host.Outcome.next (hostRead_of_some (readWindow_operand hb i j))

/-! ### Reset -/

/-- Every element of the engine at reset (10_state.md R38). -/
theorem resetEngine_values (s : State) :
    (∀ r, s.resetEngine.reg r = 0) ∧ s.resetEngine.arg = 0 ∧ s.resetEngine.res = 0 ∧ s.resetEngine.cmd = 0 ∧
    statusWord s.resetEngine = 0 ∧ s.resetEngine.pend = none ∧ readWindow s.resetEngine .ctrl = some 0 :=
  ⟨State.resetEngine_reg s, rfl, rfl, rfl, rfl, rfl, rfl⟩

/-- The step that takes a CTRL write (10_state.md R28). -/
theorem step_write_ctrl {s : State} {v : Word} {rest : List Turn} (hv : validBuild s = true)
    (ht : s.turns = .host (.write 4 (s.base + 0x014) v) :: rest) :
    step s = .next (if v.getLsbD 0 then { s with turns := rest }.resetEngine else { s with turns := rest }) := by
  rw [step_write hv ht (by decide) rfl]
  exact congrArg Host.Outcome.next (writeCtrl_eq _ v)

/-- Settles O51: power-on, and a CTRL write with bit 0 = 1, are the reset of the engine, which asks nothing
of BUSY. -/
theorem resetGivesResetValues : Obligations.ResetGivesResetValues := by
  intro s rest hv
  constructor
  · intro h
    have hs : step s = .next { s with turns := rest }.resetEngine := by
      obtain ht | ⟨v, hbit, ht⟩ := h
      · exact step_turn hv ht
      · rw [step_write_ctrl hv ht, if_pos hbit]
    obtain ⟨hregs, harg, hres, hcmd, hstatus, hpend, hctrl⟩ := resetEngine_values { s with turns := rest }
    exact ⟨_, hs, hregs, harg, hres, hcmd, hstatus, hpend, hctrl, rfl, rfl, rfl⟩
  · intro v hbit ht
    rw [step_write_ctrl hv ht, if_neg (ne_true_of_eq_false hbit)]

/-- Settles O58: `State.reset` is a state that a reset of the engine leaves as it is. -/
theorem resetStateValues : Obligations.ResetStateValues := resetEngine_values State.reset

/-! ### The engine's move -/

/-- Settles O43: in both cases the step is the engine's move from s', where the same command is pending. -/
theorem stepRunsPendingCommand : Obligations.StepRunsPendingCommand := by
  intro s s' hv hturn
  have hs : step s = engineMove s' ∧ s'.pend = s.pend := by
    obtain ⟨rest, ht, rfl⟩ | ⟨ht, rfl⟩ := hturn
    · exact ⟨step_engine hv ht, rfl⟩
    · exact ⟨step_no_turns hv ht, rfl⟩
  obtain ⟨hstep, hpend⟩ := hs
  rw [hstep, ← hpend]
  refine ⟨fun p i hp hd => engineMove_decoded hp hd, fun p hp hd => ?_, engineMove_none⟩
  exact ⟨_, engineMove_illegal hp hd, failsWith_complete s' (by decide)⟩

end Sys2Proof.Machine
end

section
/-! The stops of the host's accesses, and the accesses that leave the engine as it is (20_memory.md R50-R58). -/

namespace Sys2Proof.Machine

/-! ### Reserved offsets -/

/-- Above the last word of V15 no operand register is selected (20_memory.md R51). -/
theorem operandAt_above {k off : Nat} (h : 0x1000 + 64 * registerWords k ≤ off) : operandAt k off = .reserved := by
  have hbase : Config.operandBase = 0x1000 := rfl
  have hindex : 16 ≤ (off - Config.operandBase) / 4 / registerWords k :=
    (Nat.le_div_iff_mul_le (registerWords_pos k)).2 (by omega)
  exact dif_neg (Nat.not_lt.2 hindex)

/-- The two reserved ranges: between the control registers and the operand words, and above these
(20_memory.md R51). -/
theorem registerAt_reserved {k off : Nat}
    (h : (0x018 ≤ off ∧ off < 0x1000) ∨ 0x1000 + 64 * registerWords k ≤ off) : registerAt k off = .reserved := by
  have hbase : Config.operandBase = 0x1000 := rfl
  unfold registerAt
  split
  case h_7 =>
    split
    · rfl
    · exact operandAt_above (by omega)
  all_goals omega

/-! ### Where an access of the host stops -/

/-- Outside the window an access has no offset (20_memory.md R50). -/
theorem offsetOf_outside {base addr : Nat} (h : addr < base ∨ base + 2 ^ 24 ≤ addr) : offsetOf base addr = none := by
  have hbytes : Config.windowBytes = 2 ^ 24 := rfl
  exact if_neg (by omega)

/-- An access outside the window faults (assumption 6). -/
theorem hostAccess_outside {a : Access} {s : State} (h : a.place.2 < s.base ∨ s.base + 2 ^ 24 ≤ a.place.2) :
    hostAccess a s = .fault .outsideWindow := by
  simp only [hostAccess, offsetOf_outside h]

/-- An access of the window that is not admitted is refused (20_memory.md R56). -/
theorem hostAccess_not_admitted {a : Access} {s : State} {off : Nat} (ha : a.place.2 = s.base + off)
    (ho : off < 2 ^ 24) (h : admittedAccess a.place.1 off = false) : hostAccess a s = .refused .accessNotAdmitted := by
  simp only [hostAccess, ha, offsetOf_add ho, h, Bool.false_eq_true, if_false]

theorem admittedAccess_eq_false {width off : Nat} : admittedAccess width off = false ↔ width ≠ 4 ∨ off % 4 ≠ 0 := by
  rw [admittedAccess, decide_eq_false_iff_not, not_and_or]

/-- An admitted base is aligned, so that an offset is aligned exactly where its address is (20_memory.md R50). -/
theorem base_mod_four {s : State} (hv : validBuild s = true) : s.base % 4 = 0 := by
  have hbase : s.base % 2 ^ 24 = 0 := by
    rw [validBuild, Bool.and_eq_true] at hv
    exact of_decide_eq_true hv.2
  omega

/-- Settles O53: the build is looked at first; then an access stops at its address, or at its width and
alignment. -/
theorem wrongAccessesStop : Obligations.WrongAccessesStop := by
  refine ⟨fun s hv => step_invalidBuild hv, ?_⟩
  intro s width addr v rest a ha hv ht
  have hplace : a.place = (width, addr) := by
    rw [List.mem_pair] at ha
    obtain rfl | rfl := ha <;> rfl
  have hstep : step s = hostAccess a { s with turns := rest } := step_turn hv ht
  rw [hstep]
  constructor
  · intro hlow hhigh hwrong
    obtain ⟨off, rfl⟩ := Nat.exists_eq_add_of_le hlow
    have hbase := base_mod_four hv
    refine hostAccess_not_admitted (off := off) (by rw [hplace]) (by omega) ?_
    rw [hplace, admittedAccess_eq_false]
    omega
  · intro houtside
    exact hostAccess_outside (by rwa [hplace])

/-! ### Accesses that leave the engine as it is -/

/-- Settles O49: the read is admitted, and a host read changes only the model's record of it. -/
theorem readsHaveNoSideEffect : Obligations.ReadsHaveNoSideEffect := by
  intro s off rest hv ho h4 ht
  obtain ⟨v, n, hread⟩ := hostRead_spec { s with turns := rest } (registerAt s.kWords off)
  exact ⟨v, n, (step_read hv ht ho h4).trans (congrArg Host.Outcome.next hread)⟩

/-- Settles O52: what such an offset selects is reserved, or is ID or RES, which no write changes. -/
theorem reservedOffsetsReadZeroIgnoreWrites : Obligations.ReservedOffsetsReadZeroIgnoreWrites := by
  intro s off rest hv h4
  constructor
  · intro hoff ht
    rw [step_read hv ht (by omega) h4, registerAt_reserved (hoff.imp_right And.left)]
    rfl
  · rintro v (rfl | rfl | hoff) ht
    · exact step_write hv ht (by decide) rfl
    · exact step_write hv ht (by decide) rfl
    · rw [step_write hv ht (by omega) h4, registerAt_reserved (hoff.imp_right And.left)]
      rfl

end Sys2Proof.Machine
end

section
/-! Writes of operand words: one word, and the N words of a value (20_memory.md R52, 30_encoding.md R96). -/

namespace Sys2Proof.Machine

/-- The step that writes word j of Vi while BUSY = 0 (20_memory.md R52). -/
theorem step_write_operand_idle {s : State} {v : Word} {rest : List Turn} {i : Reg} {j : Nat}
    (hv : validBuild s = true) (hb : s.busy = false) (hj : j < registerWords s.kWords)
    (ht : s.turns = memWrite s.base (operandOffset s.kWords i j) v :: rest) :
    step s = .next (writeOperand { s with turns := rest } i j v) :=
  (step_write_operand hv ht hj).trans (congrArg Host.Outcome.next (unlessBusy_of_idle hb))

/-- The words of every register after a write of an operand word (20_memory.md R52). -/
theorem wordOf_writeOperand (s : State) (i : Reg) (j : Nat) (v : Word) (r : Reg) (l : Nat) :
    wordOf ((writeOperand s i j v).reg r) l = if r = i ∧ l = j then v else wordOf (s.reg r) l := by
  rw [writeOperand, State.setReg_reg]
  by_cases hr : r = i
  · subst hr
    simp only [if_true, wordOf_withWord, true_and]
  · simp only [hr, if_false, false_and]

/-- Settles O47: the step is the write of that word. -/
theorem operandWriteSetsOneWord : Obligations.OperandWriteSetsOneWord := by
  intro s i j v rest hv hb hj ht
  exact ⟨_, step_write_operand_idle hv hb hj ht, rfl, wordOf_writeOperand { s with turns := rest } i j v⟩

/-! ### LOADV -/

/-- Above its words a value reads 0. -/
theorem wordOf_of_le {v n l : Nat} (hv : v < 2 ^ (32 * n)) (hl : n ≤ l) : wordOf v l = 0 := by
  have hlt : v < 2 ^ (32 * l) := Nat.lt_of_lt_of_le hv (Nat.pow_le_pow_right (by omega) (by omega))
  rw [wordOf, Nat.div_eq_of_lt hlt]
  rfl

/-- Two values of N words with the same N words are one. -/
theorem eq_of_wordOf_eq_below {u v n : Nat} (hu : u < 2 ^ (32 * n)) (hv : v < 2 ^ (32 * n))
    (h : ∀ l < n, wordOf u l = wordOf v l) : u = v := by
  refine eq_of_wordOf_eq fun l => ?_
  by_cases hl : l < n
  · exact h l hl
  · rw [wordOf_of_le hu (by omega), wordOf_of_le hv (by omega)]

/-- A register written with the value it holds is left as it is. -/
theorem set_reg_self (s : State) (i : Reg) : s.x.set i (s.reg i) = s.x := Vector.set_getElem_self i.isLt

/-- The n writes of LOADV from word j on (30_encoding.md R96). -/
def loadvFrom (s : State) (i : Reg) (v j n : Nat) : List Turn :=
  (List.range' j n).map (fun l => memWrite s.base (operandOffset s.kWords i l) (wordOf v l))

theorem loadv_turns (s : State) (i : Reg) (v : Nat) :
    (HostLine.loadv i v).turns s.kWords s.base = loadvFrom s i v 0 (registerWords s.kWords) := by
  rw [HostLine.turns, List.range_eq_range', loadvFrom]

theorem loadvFrom_succ (s : State) (i : Reg) (v j n : Nat) :
    loadvFrom s i v j (n + 1) =
      memWrite s.base (operandOffset s.kWords i j) (wordOf v j) :: loadvFrom s i v (j + 1) n := by
  rw [loadvFrom, List.range'_succ, List.map_cons, loadvFrom]

/-- LOADV from word j on: where the words below j are those of the value already, its writes leave the value
(20_memory.md R52, 30_encoding.md R96). -/
theorem run_loadvFrom {i : Reg} {v : Nat} (n : Nat) : ∀ {s : State} {j : Nat}, Inv s → s.busy = false →
    v < registerLimit s.kWords → j + n = registerWords s.kWords → (∀ l < j, wordOf (s.reg i) l = wordOf v l) →
    s.turns = loadvFrom s i v j n →
    Sys2Proof.core.run n s = .next { s with turns := [], x := s.x.set i v } := by
  induction n with
  | zero =>
    intro s j hs _ hv hj hwords ht
    have hreg : s.reg i = v := eq_of_wordOf_eq_below (hs.range i) hv fun l hl => hwords l (by omega)
    rw [← hreg, set_reg_self, show ([] : List Turn) = s.turns from ht.symm]
    rfl
  | succ n ih =>
    intro s j hs hb hv hj hwords ht
    rw [loadvFrom_succ] at ht
    have hlt : j < registerWords s.kWords := by omega
    have hinv := (hs.of_unmentioned s.anyErr s.ovr (loadvFrom s i v (j + 1) n) s.readData s.freeCount).writeOperand
      i hlt (wordOf v j)
    have hwritten : ∀ l < j + 1,
        wordOf ((writeOperand { s with turns := loadvFrom s i v (j + 1) n } i j (wordOf v j)).reg i) l = wordOf v l := by
      intro l hl
      rw [wordOf_writeOperand]
      split
      · next h => rw [h.2]
      · next h =>
        have hne : l ≠ j := fun e => h ⟨rfl, e⟩
        exact hwords l (by omega)
    have hrest := ih hinv hb hv ((Nat.succ_add_eq_add_succ j n).trans hj) hwritten rfl
    rw [run_succ (step_write_operand_idle hs.build hb hlt ht)]
    refine hrest.trans ?_
    simp only [writeOperand, State.setReg, Vector.set_set]

/-- Settles O55: LOADV is all N writes, with no word loaded before the first. -/
theorem loadvLoadsTheValue : Obligations.LoadvLoadsTheValue := by
  intro s i v hs hb hv ht
  rw [loadv_turns] at ht
  exact run_loadvFrom (registerWords s.kWords) hs hb hv (Nat.zero_add _) (fun _ hl => absurd hl (Nat.not_lt_zero _)) ht

end Sys2Proof.Machine
end

section
/-! Big-endian byte buffers, and that each is the inverse of the other (20_memory.md R60, R61). -/

namespace Sys2Proof.Machine

/-- A byte put in front is the new most significant one (20_memory.md R60). -/
theorem valueOfBytesBE_cons (b : Byte) (bytes : List Byte) :
    valueOfBytesBE (b :: bytes) = b.toNat * 2 ^ (8 * bytes.length) + valueOfBytesBE bytes := by
  induction bytes using List.reverseRecOn with
  | nil => simp [valueOfBytesBE]
  | append_singleton bytes c ih =>
    rw [← List.cons_append, valueOfBytesBE_concat, ih, valueOfBytesBE_concat, List.length_append,
      List.length_singleton]
    ring

/-- The value is Σ B[i]·2^(8·(L−1−i)) (20_memory.md R60). -/
theorem valueOfBytesBE_eq_sum (bytes : List Byte) :
    valueOfBytesBE bytes = ∑ i : Fin bytes.length, bytes[i].toNat * 2 ^ (8 * (bytes.length - 1 - i.val)) := by
  induction bytes with
  | nil => rfl
  | cons b bytes ih =>
    rw [valueOfBytesBE_cons, ih]
    simp [Fin.sum_univ_succ, Nat.sub_sub, Nat.add_comm 1]

/-- The bytes of a value with one byte appended at its end (20_memory.md R61). -/
theorem bytesBE_concat (v : Nat) (b : Byte) (len : Nat) :
    bytesBE (256 * v + b.toNat) (len + 1) = bytesBE v len ++ [b] := by
  have hlast : BitVec.ofNat 8 (256 * v + b.toNat) = b := by
    apply BitVec.eq_of_toNat_eq
    have := b.isLt
    rw [BitVec.toNat_ofNat]
    omega
  have hfront : ∀ i ∈ List.range len, (256 * v + b.toNat) / 2 ^ (8 * (len - i)) = v / 2 ^ (8 * (len - 1 - i)) := by
    intro i hi
    have hexp : 8 * (len - i) = 8 + 8 * (len - 1 - i) := by rw [List.mem_range] at hi; omega
    have hdrop : (256 * v + b.toNat) / 2 ^ 8 = v := by have := b.isLt; omega
    rw [hexp, pow_add, ← Nat.div_div_eq_div_mul, hdrop]
  rw [bytesBE, bytesBE, List.range_succ, List.map_append]
  congr 1
  · exact List.map_congr_left fun i hi => congrArg (BitVec.ofNat 8) (hfront i hi)
  · simp [hlast]

/-- The bytes of the value of a buffer are the buffer (20_memory.md R61). -/
theorem bytesBE_valueOfBytesBE (bytes : List Byte) : bytesBE (valueOfBytesBE bytes) bytes.length = bytes := by
  induction bytes using List.reverseRecOn with
  | nil => rfl
  | append_singleton bytes b ih =>
    rw [valueOfBytesBE_concat, List.length_append, List.length_singleton, bytesBE_concat, ih]

/-- ToBytesBE within the capacity (20_memory.md R61). -/
theorem toBytesBE_ok {k v len : Nat} (hlen : len ≤ 4 * registerWords k) (hv : v < 2 ^ (8 * len)) :
    toBytesBE k v len = .ok (bytesBE v len) :=
  if_neg (not_or.2 ⟨Nat.not_lt.2 hlen, Nat.not_le.2 hv⟩)

/-- Settles O59: within the capacity both are total, and the two failures are those of their conditions. -/
theorem byteBufferRoundTrip : Obligations.ByteBufferRoundTrip := by
  intro k
  refine ⟨fun bytes => ⟨fun hlen => ?_, fun hlen => if_pos hlen⟩, fun v len => ⟨fun hlen hv => ?_, fun h => if_pos h⟩⟩
  · have hlt := valueOfBytesBE_lt bytes
    refine ⟨valueOfBytesBE bytes, if_neg (Nat.not_lt.2 hlen), valueOfBytesBE_eq_sum bytes, hlt, ?_⟩
    rw [toBytesBE_ok hlen hlt, bytesBE_valueOfBytesBE]
  · exact ⟨bytesBE v len, toBytesBE_ok hlen hv, length_bytesBE v len, toNat_getElem_bytesBE v len⟩

end Sys2Proof.Machine
end

section
/-! The encoding: decode and encode agree, decode reads the used bits and no others, the illegal words and
the rows of the opcode map (30_encoding.md R80-R89); and the registers a command leaves (R86). -/

namespace Sys2Proof.Machine

/-! ### A word by its fields -/

theorem bits_and (u v lo len : Nat) : bits (u &&& v) lo len = bits u lo len &&& bits v lo len := by
  rw [bits, Nat.and_div_two_pow, Nat.and_mod_two_pow]
  rfl

theorem bits_and_of_ones {w m : Word} {lo len : Nat} (h : bits m.toNat lo len = 2 ^ len - 1) :
    bits (w &&& m).toNat lo len = bits w.toNat lo len := by
  rw [BitVec.toNat_and, bits_and, h, Nat.and_two_pow_sub_one_eq_mod]
  exact Nat.mod_mod _ _

theorem bits_and_of_zeros {w m : Word} {lo len : Nat} (h : bits m.toNat lo len = 0) :
    bits (w &&& m).toNat lo len = 0 := by
  rw [BitVec.toNat_and, bits_and, h, Nat.and_zero]

theorem regField_val (w : Word) (lo : Nat) : (regField w lo).val = bits w.toNat lo 4 :=
  Nat.mod_mod _ _

/-- The register fields of a command word (30_encoding.md R80). -/
def wordFields (w : Word) : Fields where
  d := fieldD w
  a := fieldA w
  b := fieldB w
  m := fieldM w
  e := fieldE w

theorem wordFields_encode (i : Instr) : wordFields (encode i) = fieldsOf i := by
  obtain ⟨hd, ha, hb, hm, he⟩ := regFields_encode i
  simp only [wordFields, hd, ha, hb, hm, he]

/-- The fields of 30_encoding.md R80 cover the word. -/
theorem word_toNat (w : Word) :
    w.toNat = fieldOpc w + fieldsNat (wordFields w) + 2 ^ 28 * fieldVar w + 2 ^ 31 * fieldRsv w := by
  have hw := w.isLt
  simp only [fieldsNat, wordFields, fieldD, fieldA, fieldB, fieldM, fieldE, regField_val, fieldOpc, fieldVar, fieldRsv,
    bits]
  omega

theorem word_ext_fields {u w : Word} (hopc : fieldOpc u = fieldOpc w) (hregs : wordFields u = wordFields w)
    (hvar : fieldVar u = fieldVar w) (hrsv : fieldRsv u = fieldRsv w) : u = w := by
  apply BitVec.eq_of_toNat_eq
  rw [word_toNat u, word_toNat w, hopc, hregs, hvar, hrsv]

/-! ### The match bits: OPC, VAR and RSV -/

theorem fieldOpc_and_matchMask (w : Word) : fieldOpc (w &&& 0xF00000FF#32) = fieldOpc w := bits_and_of_ones rfl

theorem fieldVar_and_matchMask (w : Word) : fieldVar (w &&& 0xF00000FF#32) = fieldVar w := bits_and_of_ones rfl

theorem fieldRsv_and_matchMask (w : Word) : fieldRsv (w &&& 0xF00000FF#32) = fieldRsv w := bits_and_of_ones rfl

/-- The match bits of a word are its OPC, VAR and RSV (30_encoding.md R86). -/
theorem matchFields_eq {u w : Word} (h : u &&& 0xF00000FF#32 = w &&& 0xF00000FF#32) :
    fieldOpc u = fieldOpc w ∧ fieldVar u = fieldVar w ∧ fieldRsv u = fieldRsv w := by
  rw [← fieldOpc_and_matchMask u, ← fieldVar_and_matchMask u, ← fieldRsv_and_matchMask u, h, fieldOpc_and_matchMask,
    fieldVar_and_matchMask, fieldRsv_and_matchMask]
  exact ⟨rfl, rfl, rfl⟩

/-- Decode finds the row by the match bits alone (30_encoding.md R87). -/
theorem decode_of_matchBits {w k : Word} (h : w &&& 0xF00000FF#32 = k &&& 0xF00000FF#32) (hrsv : fieldRsv k = 0) :
    decode w = decodeRow (fieldOpc k) (fieldVar k) (fieldD w) (fieldA w) (fieldB w) (fieldM w) (fieldE w) := by
  obtain ⟨opc, var, rsv⟩ := matchFields_eq h
  rw [decode, rsv, hrsv, opc, var]
  rfl

theorem usedMask_and_matchMask (i : Instr) : usedMask i &&& 0xF00000FF#32 = 0xF00000FF#32 := by
  cases i <;> simp only [usedMask] <;> decide

/-! ### The fields an instruction uses -/

/-- The register at bits lo+3..lo where the row of `i` reads them, and 0 where it does not
(30_encoding.md R81). -/
def keptField (i : Instr) (lo : Nat) (r : Reg) : Reg := if bits (usedMask i).toNat lo 4 = 15 then r else 0

/-- The register fields with those that `i` does not use at 0. -/
def keptFields (i : Instr) (f : Fields) : Fields where
  d := keptField i 8 f.d
  a := keptField i 12 f.a
  b := keptField i 16 f.b
  m := keptField i 20 f.m
  e := keptField i 24 f.e

/-- The used bits of a row are whole fields. -/
theorem usedMask_regField (i : Instr) : ∀ lo ∈ [8, 12, 16, 20, 24],
    bits (usedMask i).toNat lo 4 = 15 ∨ bits (usedMask i).toNat lo 4 = 0 := by
  cases i <;> simp only [usedMask] <;> decide

theorem regField_and_usedMask (w : Word) (i : Instr) {lo : Nat} (hlo : lo ∈ [8, 12, 16, 20, 24]) :
    regField (w &&& usedMask i) lo = keptField i lo (regField w lo) := by
  apply regField_eq
  obtain hones | hzeros := usedMask_regField i lo hlo
  · rw [bits_and_of_ones hones, keptField, if_pos hones, regField_val]
  · rw [bits_and_of_zeros hzeros, keptField, if_neg (by omega)]
    rfl

theorem wordFields_and_usedMask (w : Word) (i : Instr) :
    wordFields (w &&& usedMask i) = keptFields i (wordFields w) := by
  simp [wordFields, keptFields, fieldD, fieldA, fieldB, fieldM, fieldE, regField_and_usedMask]

/-! ### The rows of the opcode map -/

/-- The row of an instruction, with the instruction's own fields. -/
theorem decodeRow_fieldsOf (i : Instr) :
    decodeRow (opcVar i).1 (opcVar i).2 (fieldsOf i).d (fieldsOf i).a (fieldsOf i).b (fieldsOf i).m (fieldsOf i).e =
      .ok i := by
  cases i <;> rfl

/-- The row of an instruction, with any fields: a command that uses the same bits. -/
theorem decodeRow_opcVar (i : Instr) (d a b m e : Reg) :
    ∃ j, decodeRow (opcVar i).1 (opcVar i).2 d a b m e = .ok j ∧ usedMask j = usedMask i := by
  cases i <;> exact ⟨_, rfl, rfl⟩

/-- What a row gives: a command of this OPC and VAR, on the fields it uses. -/
theorem decodeRow_eq_ok {opc var : Nat} {d a b m e : Reg} {i : Instr} (h : decodeRow opc var d a b m e = .ok i) :
    opcVar i = (opc, var) ∧ fieldsOf i = keptFields i { d, a, b, m, e } := by
  unfold decodeRow at h
  split at h <;> cases h <;> exact ⟨rfl, by simp [fieldsOf, keptFields, keptField, usedMask, bits]⟩

/-- What a word that decodes gives: RSV is 0, OPC and VAR are those of the command's row, and its registers
are the fields it uses (30_encoding.md R87). -/
theorem decode_eq_ok {w : Word} {i : Instr} (h : decode w = .ok i) :
    fieldRsv w = 0 ∧ opcVar i = (fieldOpc w, fieldVar w) ∧ fieldsOf i = keptFields i (wordFields w) := by
  rw [decode] at h
  split at h
  · cases h
  · next hrsv =>
    have hlt : fieldRsv w < 2 := Nat.mod_lt _ (by decide)
    exact ⟨by omega, decodeRow_eq_ok h⟩

/-! ### The round trip and the used bits -/

/-- Settles O38: the fields of an encoded word are those it was made of, and its row gives the command. -/
theorem decodeEncodeRoundTrip : Obligations.DecodeEncodeRoundTrip := by
  intro i
  obtain ⟨hd, ha, hb, hm, he⟩ := regFields_encode i
  rw [decode_of_matchBits rfl (fieldRsv_encode i), fieldOpc_encode, fieldVar_encode, hd, ha, hb, hm, he]
  exact decodeRow_fieldsOf i

theorem encode_injective {i j : Instr} (h : encode i = encode j) : i = j :=
  Except.ok.inj ((decodeEncodeRoundTrip i).symm.trans (h ▸ decodeEncodeRoundTrip j))

/-- A word that decodes has the used bits of the command's word. -/
theorem and_usedMask_of_decode {w : Word} {i : Instr} (h : decode w = .ok i) : w &&& usedMask i = encode i := by
  obtain ⟨hrsv, hrow, hregs⟩ := decode_eq_ok h
  obtain ⟨opc, var, rsv⟩ := matchFields_eq (u := w &&& usedMask i) (w := w) (by
    rw [BitVec.and_assoc, usedMask_and_matchMask])
  apply word_ext_fields
  · rw [opc, fieldOpc_encode, hrow]
  · rw [wordFields_and_usedMask, wordFields_encode, hregs]
  · rw [var, fieldVar_encode, hrow]
  · rw [rsv, fieldRsv_encode, hrsv]

/-- Settles O39. A word with the used bits of `i` is in the row of `i`, so it decodes to some command `j` that
uses the same bits; both commands then have one word. -/
theorem decodeReadsExactlyUsedBits : Obligations.DecodeReadsExactlyUsedBits := by
  refine fun i w => ⟨and_usedMask_of_decode, fun h => ?_⟩
  have hmatch : w &&& 0xF00000FF#32 = encode i &&& 0xF00000FF#32 := by
    rw [← h, BitVec.and_assoc, usedMask_and_matchMask]
  obtain ⟨j, hj, hmask⟩ := decodeRow_opcVar i (fieldD w) (fieldA w) (fieldB w) (fieldM w) (fieldE w)
  have hdecode : decode w = .ok j := by
    rw [decode_of_matchBits hmatch (fieldRsv_encode i), fieldOpc_encode, fieldVar_encode, hj]
  have hword : encode j = encode i := by rw [← and_usedMask_of_decode hdecode, hmask, h]
  rw [hdecode, encode_injective hword]

/-! ### Legal and illegal words -/

theorem execWord_of_decode {w : Word} {i : Instr} (h : decode w = .ok i) (s : State) : execWord w s = exec i s := by
  rw [execWord, h]

theorem execWord_of_not_decode {w : Word} (h : ¬ ∃ i, decode w = .ok i) (s : State) :
    execWord w s = raiseErr .illegalCommand s := by
  rcases hd : decode w with e | i
  · rw [execWord, hd]
  · exact absurd ⟨i, hd⟩ h

/-- Every instruction's row is one of the statement's table. -/
theorem opcVar_mem_legalRows (i : Instr) : ∃ p ∈ legalRows, (opcVar i).1 = p.1 ∧ (opcVar i).2 < p.2 := by
  cases i <;> simp only [opcVar] <;> decide

/-- Every row of the statement's table is some instruction's. -/
theorem exists_opcVar_of_legalRow {p : Nat × Nat} (hp : p ∈ legalRows) {var : Nat} (hvar : var < p.2) :
    ∃ i, opcVar i = (p.1, var) := by
  have hrows : ∀ p ∈ legalRows, ∀ var < p.2, (decodeRow p.1 var 0 0 0 0 0).toBool = true := by decide
  have hrow := hrows p hp var hvar
  rcases h : decodeRow p.1 var 0 0 0 0 0 with e | i
  · rw [h] at hrow
    cases hrow
  · exact ⟨i, (decodeRow_eq_ok h).1⟩

theorem fieldRsv_eq_zero {w : Word} : fieldRsv w = 0 ↔ w.getLsbD 31 = false := by
  have hlt : fieldRsv w < 2 := Nat.mod_lt _ (by decide)
  rw [← bits_one, beq_eq_false_iff_ne]
  unfold fieldRsv at *
  omega

/-- The legal words are those that decode (30_encoding.md R88). -/
theorem legalWord_iff {w : Word} : LegalWord w ↔ ∃ i, decode w = .ok i := by
  constructor
  · rintro ⟨hrsv, p, hp, hopc, hvar⟩
    obtain ⟨i, hi⟩ := exists_opcVar_of_legalRow hp hvar
    obtain ⟨j, hj, -⟩ := decodeRow_opcVar i (fieldD w) (fieldA w) (fieldB w) (fieldM w) (fieldE w)
    rw [hi, ← hopc] at hj
    exact ⟨j, (decode_of_matchBits rfl (fieldRsv_eq_zero.2 hrsv)).trans hj⟩
  · rintro ⟨i, h⟩
    obtain ⟨hrsv, hrow, -⟩ := decode_eq_ok h
    obtain ⟨p, hp, hopc, hvar⟩ := opcVar_mem_legalRows i
    rw [hrow] at hopc hvar
    exact ⟨fieldRsv_eq_zero.1 hrsv, p, hp, hopc, hvar⟩

/-- Settles O40: the illegal words are those that do not decode, and the error writes STATUS and PEND only. -/
theorem illegalWordsEndWithIllegalCommand : Obligations.IllegalWordsEndWithIllegalCommand := by
  refine fun w => ⟨fun hw s => ?_, legalWord_iff.1⟩
  refine ⟨s.complete .illegalCommand, ?_, failsWith_complete s (by decide)⟩
  rw [execWord_of_not_decode (mt legalWord_iff.2 hw), raiseErr_eq]

/-! ### The words of a row -/

/-- A word with the match bits of a command's row executes the command, where the row makes it of the word's
fields. -/
theorem executes_of_matchWord {w k : Word} {i : Instr} {opc var : Nat} (h : w &&& 0xF00000FF#32 = k)
    (hi : opcVar i = (opc, var)) (hk : BitVec.ofNat 32 (opc + 2 ^ 28 * var) = k)
    (hrow : decodeRow (opcVar i).1 (opcVar i).2 (fieldD w) (fieldA w) (fieldB w) (fieldM w) (fieldE w) = .ok i) :
    decode w = .ok i ∧ ∀ s, execWord w s = exec i s := by
  have hmatch : w &&& 0xF00000FF#32 = encode i &&& 0xF00000FF#32 := by
    rw [h, Laws.matchWord_of i, matchNat, hi, hk]
  have hdecode : decode w = .ok i := by
    rw [decode_of_matchBits hmatch (fieldRsv_encode i), fieldOpc_encode, fieldVar_encode, hrow]
  exact ⟨hdecode, execWord_of_decode hdecode⟩

/-- Settles O41: for each of the 54 rows, the decoder's row at its OPC and VAR is the row's command. -/
theorem legalWordsExecuteTheirRow : Obligations.LegalWordsExecuteTheirRow := by
  intro w d a b m e hd ha hb hm he
  obtain rfl : fieldD w = d := regField_eq hd.symm
  obtain rfl : fieldA w = a := regField_eq ha.symm
  obtain rfl : fieldB w = b := regField_eq hb.symm
  obtain rfl : fieldM w = m := regField_eq hm.symm
  obtain rfl : fieldE w = e := regField_eq he.symm
  iterate 54 refine List.forall_mem_cons.2 ⟨fun h => executes_of_matchWord h rfl rfl rfl, ?_⟩
  exact List.forall_mem_nil _

/-! ### The registers a command leaves -/

/-- Settles O35: an error leaves every register, and results leave every register but the destinations. -/
theorem onlyDestinationsChange : Obligations.OnlyDestinationsChange := by
  intro i s t h
  obtain ⟨c, r, shape⟩ := exec_shape i s
  obtain ⟨e, -, rfl⟩ | ⟨-, rfl⟩ := shape.next_cases h
  · exact fun _ _ => rfl
  · exact shape.regs

end Sys2Proof.Machine
end

section
/-! The commands of 41_representation.md: copy, bit operations, length queries, shifts, compare and predicates;
and example words of the spec, each the word of its command. -/

namespace Sys2Proof.Machine

/-! ### How these commands end -/

/-- A command without checks that writes one register. -/
theorem succeeds_setReg {i : Instr} {s : State} {d : Reg} {v w : Nat} (hx : exec i s = succeed (s.setReg d v))
    (hv : v = w) : ∃ t, exec i s = .next t ∧ WritesRegs [d] s t ∧ t.reg d = w :=
  ⟨_, hx, writesRegs_one s d v, (s.setReg_reg_same d v).trans hv⟩

/-- A command without checks that writes RES. -/
theorem succeeds_setRes {i : Instr} {s : State} {v w : Word} (hx : exec i s = succeed (s.setRes v)) (hv : v = w) :
    ∃ t, exec i s = .next t ∧ WritesRes s t ∧ t.res = w :=
  ⟨_, hx, writesRes_one s v, hv⟩

theorem firstErr_singleton (c : Option ErrCode) : firstErr [c] = c := by
  cases c <;> rfl

/-- A command whose one check is that arg, the captured scalar, is a bit index of a register. -/
theorem runsAs_bitIndex {i : Instr} {s r : State} {p : Pending} {post : State → Prop} (hp : s.pend = some p)
    (hx : exec i s = checked (bitIndexCheck s.kWords s.scalar) s r) (hpost : post (r.complete .ok)) :
    RunsAs i s [(registerBits s.kWords ≤ p.arg.toNat, .invalidLength)] post := by
  rw [scalar_of_pending hp, ← firstErr_singleton (bitIndexCheck _ _)] at hx
  exact runsAs_checked hx (.cons (checkAgrees_errIf (by decide) rfl) .nil) fun _ => hpost

/-! ### The values they write to RES -/

theorem ofNat_bitOf (v i : Nat) : BitVec.ofNat 32 (bitOf v i) = if v.testBit i then 1 else 0 := by
  rw [bitOf_eq_testBit]
  cases v.testBit i <;> rfl

theorem boolWord_decide (p : Prop) [Decidable p] : boolWord (decide p) = if p then 1 else 0 := by
  simp only [boolWord, decide_eq_true_eq]

theorem compareWord_of_lt {a b : Nat} (h : a < b) : compareWord a b = 0xFFFFFFFF := if_pos h

theorem compareWord_of_eq {a b : Nat} (h : a = b) : compareWord a b = 0 := by
  rw [compareWord, if_neg (by omega), if_pos h]

theorem compareWord_of_gt {a b : Nat} (h : b < a) : compareWord a b = 1 := by
  rw [compareWord, if_neg (by omega), if_neg (by omega)]

/-- The lengths of a register's value, in bits and in words, fit RES in every admitted build. -/
theorem lengths_lt_word {k v : Nat} (hk : validCapacity k = true) (hv : v < registerLimit k) :
    msb v < 2 ^ 32 ∧ ulen v < 2 ^ 32 := by
  obtain ⟨-, hk⟩ := of_decide_eq_true hk
  have hmsb : msb v ≤ registerBits k := msb_le_iff.2 hv
  have hulen : ulen v ≤ registerWords k := ulen_le_iff.2 hv
  unfold registerBits registerWords at *
  omega

/-! ### The commands -/

/-- Settles O2: RES is the bit of the value, as a word. -/
theorem getbitReadsIndexedBit : Obligations.GetbitReadsIndexedBit := by
  intro a s p hp
  refine runsAs_bitIndex hp rfl ⟨writesRes_one s _, ?_⟩
  rw [State.complete_res, State.setRes_res, scalar_of_pending hp, ofNat_bitOf]

/-- Settles O3, bit by bit of the value written. -/
theorem setbitClrbitChangeOneBit : Obligations.SetbitClrbitChangeOneBit := by
  refine fun d s p hp => ⟨?setbit, ?clrbit⟩
  case setbit =>
    refine runsAs_bitIndex hp rfl ⟨writesRegs_one s d _, fun j => ?_⟩
    rw [State.complete_reg, State.setReg_reg_same, scalar_of_pending hp, setBitNat_testBit]
  case clrbit =>
    refine runsAs_bitIndex hp rfl ⟨writesRegs_one s d _, fun j => ?_⟩
    rw [State.complete_reg, State.setReg_reg_same, scalar_of_pending hp, clearBitNat_testBit]

/-- Settles O4: RES is the length itself, since it fits a word, and each length is least by its definition. -/
theorem ulenMsbMeasureLength : Obligations.UlenMsbMeasureLength := by
  intro a s hk hv
  obtain ⟨hmsb, hulen⟩ := lengths_lt_word hk hv
  refine ⟨⟨_, rfl, writesRes_one s _, fun l => ?_⟩, ⟨_, rfl, writesRes_one s _, fun b => ?_⟩⟩
  · rw [State.complete_res, State.setRes_res, BitVec.toNat_ofNat, Nat.mod_eq_of_lt hulen, ulen_le_iff]
  · rw [State.complete_res, State.setRes_res, BitVec.toNat_ofNat, Nat.mod_eq_of_lt hmsb, msb_le_iff]

/-- Settles O5: the count is the captured arg, and a shift is a product or a quotient for every count. -/
theorem shlShrShiftByArg : Obligations.ShlShrShiftByArg := by
  intro d a s p hp
  rw [← scalar_of_pending hp]
  exact ⟨succeeds_setReg rfl (shiftLeftN_eq _ _ _), succeeds_setReg rfl (shiftRightN_eq _ _)⟩

/-- Settles O1: neither command has a check. -/
theorem movCopiesClrZeroes : Obligations.MovCopiesClrZeroes :=
  ⟨fun _ _ _ => succeeds_setReg rfl rfl, fun _ _ => succeeds_setReg rfl rfl⟩

/-- Settles O6: these are the shifts by 1 and by 32. -/
theorem fixedShiftsByBitAndWord : Obligations.FixedShiftsByBitAndWord := by
  intro d a s
  exact ⟨succeeds_setReg rfl (shiftLeftN_eq _ _ 1), succeeds_setReg rfl (shiftRightN_eq _ 1),
    succeeds_setReg rfl (shiftLeftN_eq _ _ 32), succeeds_setReg rfl (shiftRightN_eq _ 32)⟩

/-- Settles O7, case by case of the comparison. -/
theorem cmpThreeWay : Obligations.CmpThreeWay :=
  fun _ _ s => ⟨_, rfl, writesRes_one s _, compareWord_of_lt, compareWord_of_eq, compareWord_of_gt⟩

/-- Settles O8: an odd value is one whose bit 0 is set. -/
theorem predicatesSetRes : Obligations.PredicatesSetRes := by
  refine fun a s => ⟨succeeds_setRes rfl (boolWord_decide _), succeeds_setRes rfl (boolWord_decide _),
    succeeds_setRes rfl ?_⟩
  rw [ofNat_bitOf, Nat.testBit_zero]
  simp only [decide_eq_true_eq]

/-! ### Example words -/

theorem decode_of_encode_eq {w : Word} {i : Instr} (h : encode i = w) : decode w = .ok i :=
  h ▸ decodeEncodeRoundTrip i

/-- Settles O42: each word is the one its command encodes to. -/
theorem specExampleWordsDecode : Obligations.SpecExampleWordsDecode := by
  refine ⟨?_, ?_, ?_, ?_, ?_, ?_, ?_, ?_, ?_, ?_, ?_⟩ <;> exact decode_of_encode_eq rfl

end Sys2Proof.Machine
end

section
/-! The commands of 42_addsub.md: sums and differences modulo 2^(32N), with carry and borrow. -/

namespace Sys2Proof.Machine

/-- A command without checks that writes one register and C. -/
theorem succeeds_setReg_setC {i : Instr} {s : State} {d : Reg} {v : Nat} {c : Bool}
    (hx : exec i s = succeed ((s.setReg d v).setC c)) :
    ∃ t, exec i s = .next t ∧ WritesRegsAndC [d] s t ∧ t.reg d = v ∧ t.c = c :=
  ⟨_, hx, writesRegsAndC_one s d v c, s.setReg_reg_same d v, rfl⟩

/-- What SUB and SUBW write is the residue itself: a residue is not negative, so taking it as a natural number
loses nothing. -/
theorem subN_eq_emod (k a b : Nat) : (subN k a b : Int) = ((a : Int) - b) % (2 ^ registerBits k : Nat) :=
  Int.toNat_of_nonneg (Int.emod_nonneg _ (Int.natCast_ne_zero.2 (registerLimit_pos k).ne'))

/-- A command without checks that writes the difference of x[A] and `n`, and the borrow. -/
theorem succeeds_difference {i : Instr} {s : State} {d a : Reg} {n : Nat}
    (hx : exec i s = succeed ((s.setReg d (subN s.kWords (s.reg a) n)).setC (borrowOut (s.reg a) n))) :
    ∃ t, exec i s = .next t ∧ WritesRegsAndC [d] s t ∧
      (t.reg d : Int) = ((s.reg a : Int) - n) % (2 ^ registerBits s.kWords : Nat) ∧
      t.c = decide (s.reg a < n) := by
  obtain ⟨t, ht, hframe, hreg, hc⟩ := succeeds_setReg_setC hx
  refine ⟨t, ht, hframe, ?_, hc⟩
  rw [hreg, subN_eq_emod]

/-- Settles O9: the sum is wrapped by its definition, and ADDW's second summand is the captured arg. -/
theorem addAddwWrapWithCarry : Obligations.AddAddwWrapWithCarry := by
  refine ⟨fun d a b s => succeeds_setReg_setC rfl, fun d a s p hp => ?addw⟩
  case addw =>
    rw [← scalar_of_pending hp]
    exact succeeds_setReg_setC rfl

/-- Settles O10: both commands write a difference, and SUBW's subtrahend is the captured arg. -/
theorem subSubwWrapWithBorrow : Obligations.SubSubwWrapWithBorrow := by
  refine ⟨fun d a b s => succeeds_difference rfl, fun d a s p hp => ?subw⟩
  case subw =>
    rw [← scalar_of_pending hp]
    exact succeeds_difference rfl

end Sys2Proof.Machine
end

section
/-! The commands of 43_multiply.md, the truncated product and the exact square; and the variants the spec requires
to agree. -/

namespace Sys2Proof.Machine

/-! ### The check of SQR -/

theorem lt_ulen_iff {v l : Nat} : l < ulen v ↔ 2 ^ (32 * l) ≤ v := by
  rw [← Nat.not_le, ulen_le_iff, Nat.not_lt]

/-- A command with one check runs as a rule with that check. -/
theorem runsAs_checked_one {i : Instr} {s r : State} {p : Prop} {e : ErrCode} {c : Option ErrCode}
    {post : State → Prop} (hx : exec i s = checked c s r) (hc : CheckAgrees (p, e) c)
    (hpost : ¬ p → post (r.complete .ok)) : RunsAs i s [(p, e)] post := by
  rw [← firstErr_singleton c] at hx
  exact runsAs_checked hx (.cons hc .nil) fun hn => hpost (hn (p, e) (List.mem_singleton_self _))

/-! ### Variants -/

/-- An odd modulus passes the check for oddness, so it does not matter whether that check is made (R160). -/
theorem modCheck_of_odd {k n : Nat} (h : n % 2 = 1) (needOdd : Bool) : modCheck k n needOdd = modCheck k n false := by
  have hbit : bitOf n 0 = 1 := by rw [bitOf, pow_zero, Nat.div_one, h]
  simp [modCheck, hbit]

/-- EXP.MONT differs from EXP in the check for an odd modulus only (R190, R191). -/
theorem exec_expMont_of_odd {s : State} {m : Reg} (h : s.reg m % 2 = 1) (d a b : Reg) :
    exec (.expMont d a b m) s = exec (.exp d a b m) s := by
  change exponentiate true d a b m s = exponentiate false d a b m s
  rw [exponentiate, exponentiate, modCheck_of_odd h]

/-- Where SQR passes its check, the product that MUL truncates is the square itself (R140, R141). -/
theorem exec_sqr_of_lt {s : State} {a : Reg} (h : s.reg a < 2 ^ (32 * (s.kWords + 1))) (d : Reg) :
    exec (.sqr d a) s = exec (.mul d a a) s := by
  have hlen : ulen (s.reg a) ≤ s.kWords + 1 := ulen_le_iff.2 h
  have hcheck : decide (registerWords s.kWords / 2 < ulen (s.reg a)) = false := by
    rwa [registerWords_half, decide_eq_false_iff_not, Nat.not_lt]
  change execSqr d a s = execMul d a a s
  rw [execSqr, execMul, hcheck, errIf_false, wrapN_of_lt (sq_lt_limit_of_ulen_le hlen), succeed_eq_checked s]

/-! ### The statements -/

/-- Settles O12: the check on the length is one on the value, and a value that passes has a square in range. -/
theorem sqrSquaresExactlyOrFails : Obligations.SqrSquaresExactlyOrFails := by
  intro d a s
  refine runsAs_checked_one rfl (checkAgrees_errIf (by decide) (decide_eq_decide.2 lt_ulen_iff)) fun hfits => ?_
  have hreg : ((s.setReg d (s.reg a * s.reg a)).complete .ok).reg d = s.reg a * s.reg a := s.setReg_reg_same d _
  have hlen : ulen (s.reg a) ≤ s.kWords + 1 := by
    rwa [registerWords_half, Nat.not_le, ← ulen_le_iff] at hfits
  exact ⟨writesRegs_one s d _, hreg, hreg.trans_lt (sq_lt_limit_of_ulen_le hlen)⟩

/-- Settles O11: MUL has no check, and wraps the product by its definition. -/
theorem mulTruncatesProduct : Obligations.MulTruncatesProduct :=
  fun _ _ _ _ => succeeds_setReg rfl rfl

/-- Settles O37: the variants of DIV, of MOD and of EXP without Montgomery have one meaning each; EXP.MONT and SQR
add a check, which passes here. -/
theorem variantsAgree : Obligations.VariantsAgree :=
  fun d _ a b _ _ => ⟨rfl, rfl, rfl, fun hodd => exec_expMont_of_odd hodd d a b, fun hlt => exec_sqr_of_lt hlt d⟩

end Sys2Proof.Machine
end

section
/-! The commands of 44_division.md: quotient and remainder, to two different destinations. -/

namespace Sys2Proof.Machine

/-- A command with two outputs and a divisor: it checks the destinations and then the divisor (R151, R241). As the
destinations are different where the checks pass, each holds the value written to it. -/
theorem runsAs_two_outputs {i : Instr} {s : State} {d e b : Reg} {v w : Nat} {post : State → Prop}
    (hx : exec i s = checked (firstErr [aliasCheck d e, zeroCheck (s.reg b)]) s ((s.setReg d v).setReg e w))
    (hpost : s.reg b ≠ 0 → ∀ t, WritesRegs [d, e] s t → t.reg d = v → t.reg e = w → post t) :
    RunsAs i s [(d = e, .aliasViolation), (s.reg b = 0, .divisionByZero)] post := by
  refine runsAs_checked hx
    (.cons (checkAgrees_errIf (by decide) rfl) (.cons (checkAgrees_errIf (by decide) rfl) .nil)) fun hnone => ?_
  have hne : d ≠ e := hnone (d = e, .aliasViolation) (by simp)
  have hdivisor : s.reg b ≠ 0 := hnone (s.reg b = 0, .divisionByZero) (by simp)
  refine hpost hdivisor _ (writesRegs_two s d e v w) ?_ (State.setReg_reg_same _ e w)
  rw [State.complete_reg, State.setReg_reg_ne _ w hne, State.setReg_reg_same]

/-- Settles O13: both variants divide by the same rule, and a natural number is its quotient times a non-zero
divisor plus a remainder below the divisor. -/
theorem divGivesQuotientRemainder : Obligations.DivGivesQuotientRemainder := by
  intro d e a b s i hi
  have hx : exec i s = divide d e a b s := by
    obtain rfl | rfl : i = .div d e a b ∨ i = .divHac d e a b := by simpa using hi
    · rfl
    · rfl
  refine runsAs_two_outputs hx fun hdivisor t hframe hquotient hremainder => ⟨hframe, ?_, ?_⟩
  · rw [hquotient, hremainder, Nat.div_add_mod']
  · rw [hremainder]
    exact Nat.mod_lt _ (Nat.pos_of_ne_zero hdivisor)

end Sys2Proof.Machine
end

section
/-! The commands of 45_modular.md: sum, difference, remainder and product modulo x[M]. -/

namespace Sys2Proof.Machine

/-! ### The checks -/

/-- A command with a modulus and two operands below it (R160, R161): it checks the modulus, by a ModCheck whose
checks are `checks`, and then the range of each operand. -/
theorem runsAs_modular {i : Instr} {s r : State} {a b m : Reg} {needOdd : Bool} {checks : List (Prop × ErrCode)}
    {modulusList : List (Option ErrCode)} {post : State → Prop}
    (hx : exec i s = checked (firstErr [modCheck s.kWords (s.reg m) needOdd, rangeCheck (s.reg a) (s.reg m),
      rangeCheck (s.reg b) (s.reg m)]) s r)
    (hmod : modCheck s.kWords (s.reg m) needOdd = firstErr modulusList)
    (hagree : List.Forall₂ CheckAgrees checks modulusList)
    (hpost : s.reg a < s.reg m → s.reg b < s.reg m → post (r.complete .ok)) :
    RunsAs i s (checks ++ rangeChecks s a m ++ rangeChecks s b m) post := by
  rw [hmod, firstErr_append] at hx
  rw [List.append_assoc]
  refine runsAs_checked hx
    (List.rel_append hagree (List.rel_append (rangeChecks_agree s a m) (rangeChecks_agree s b m))) fun hnone => ?_
  have ha : ¬ s.reg m ≤ s.reg a := hnone (s.reg m ≤ s.reg a, .operandOutOfRange) (by simp [rangeChecks])
  have hb : ¬ s.reg m ≤ s.reg b := hnone (s.reg m ≤ s.reg b, .operandOutOfRange) (by simp [rangeChecks])
  exact hpost (Nat.not_le.1 ha) (Nat.not_le.1 hb)

/-- What a command that writes one register leaves. -/
theorem writesRegs_and_reg (s : State) (d : Reg) (v : Nat) :
    WritesRegs [d] s ((s.setReg d v).complete .ok) ∧ ((s.setReg d v).complete .ok).reg d = v :=
  ⟨writesRegs_one s d v, s.setReg_reg_same d v⟩

/-! ### The difference modulo n -/

/-- SUBMOD's result as an integer: a residue is not negative, so taking it as a natural number loses nothing. -/
theorem residue_toNat {n : Nat} (hn : n ≠ 0) (z : Int) : ((z % (n : Int)).toNat : Int) = z % n :=
  Int.toNat_of_nonneg (Int.emod_nonneg z (Int.natCast_ne_zero.2 hn))

theorem residue_toNat_lt {n : Nat} (hn : n ≠ 0) (z : Int) : (z % (n : Int)).toNat < n := by
  have hlt : z % (n : Int) < n := Int.emod_lt_of_pos z (Int.natCast_pos.2 (Nat.pos_of_ne_zero hn))
  rwa [← residue_toNat hn, Int.ofNat_lt] at hlt

/-- The residue of a difference gives the minuend back when the subtrahend is added. -/
theorem residue_sub_add_mod {a n : Nat} (ha : a < n) (b : Nat) :
    ((((a : Int) - b) % (n : Int)).toNat + b) % n = a := by
  have hn : n ≠ 0 := by omega
  zify
  calc ((((a : Int) - b) % (n : Int)).toNat + (b : Int)) % n
      = (((a : Int) - b) % n + b) % n := by rw [residue_toNat hn]
    _ = (a : Int) % n := by rw [Int.emod_add_emod, sub_add_cancel]
    _ = a := Int.emod_eq_of_lt (Int.natCast_nonneg a) (Int.ofNat_lt.2 ha)

/-! ### The statements -/

/-- Settles O14: both commands make the same checks; below n, SUBMOD's residue is determined by the sum with
x[B]. -/
theorem addmodSubmodReduce : Obligations.AddmodSubmodReduce := by
  refine fun d a b m s => ⟨?addmod, ?submod⟩
  case addmod =>
    exact runsAs_modular rfl (modCheck_false s m) (modulusChecks_agree s m) fun _ _ => writesRegs_and_reg s d _
  case submod =>
    refine runsAs_modular rfl (modCheck_false s m) (modulusChecks_agree s m) fun ha _ => ?_
    obtain ⟨hframe, hreg⟩ := writesRegs_and_reg s d (((s.reg a : Int) - s.reg b) % (s.reg m : Int)).toNat
    refine ⟨hframe, ?_, ?_⟩
    · rw [hreg]
      exact residue_toNat_lt (Nat.ne_zero_of_lt ha) _
    · rw [hreg, residue_sub_add_mod ha]

/-- Settles O15: both variants take the remainder by the same rule, and it is below a non-zero modulus. -/
theorem modIsRemainder : Obligations.ModIsRemainder := by
  intro d a m s i hi
  have hx : exec i s = remainder d a m s := by
    obtain rfl | rfl : i = .mod d a m ∨ i = .modHac d a m := by simpa using hi
    · rfl
    · rfl
  refine runsAs_checked_one hx (checkAgrees_errIf (by decide) rfl) fun hmodulus => ?_
  obtain ⟨hframe, hreg⟩ := writesRegs_and_reg s d (s.reg a % s.reg m)
  refine ⟨hframe, ?_, s.reg a / s.reg m, ?_⟩
  · rw [hreg]
    exact Nat.mod_lt _ (Nat.pos_of_ne_zero hmodulus)
  · rw [hreg, Nat.div_add_mod']

/-- Settles O16: the three Montgomery variants have one meaning, which differs from MULMOD's in the check for an
odd modulus only. -/
theorem mulmodMultipliesModulo : Obligations.MulmodMultipliesModulo := by
  refine fun d a b m s => ⟨?classic, fun i hi => ?montgomery⟩
  case classic =>
    exact runsAs_modular rfl (modCheck_false s m) (modulusChecks_agree s m) fun _ _ => writesRegs_and_reg s d _
  case montgomery =>
    have hx : exec i s = mulModulo true d a b m s := by
      obtain rfl | rfl | rfl : i = .mulmodMw d a b m ∨ i = .mulmodMb d a b m ∨ i = .mulmodMr d a b m := by
        simpa using hi
      · rfl
      · rfl
      · rfl
    exact runsAs_modular hx (modCheck_true s m) (oddModulusChecks_agree s m) fun _ _ => writesRegs_and_reg s d _

end Sys2Proof.Machine
end

section
/-! The commands of 46_montgomery.md: the Montgomery constants of a modulus, REDC and the Montgomery product; and the
agreement of the Montgomery variants. -/

namespace Sys2Proof.Machine

/-! ### A modulus that is checked to be odd -/

/-- A modulus that passes ModCheck(x[M], true) is odd (R160). -/
theorem odd_of_oddModulusChecks {s : State} {m : Reg} (h : NoneFailing (oddModulusChecks s m)) : s.reg m % 2 = 1 := by
  have hodd : ¬ s.reg m % 2 = 0 := h (s.reg m % 2 = 0, .notInvertible) (by simp [oddModulusChecks])
  omega

/-- A command that makes ModCheck(x[M], true) first and then the checks `rest`: its results are asked of an odd
modulus only. -/
theorem runsAs_oddModulus {i : Instr} {s r : State} {m : Reg} {rest : List (Prop × ErrCode)}
    {restList : List (Option ErrCode)} {post : State → Prop}
    (hx : exec i s = checked (firstErr (modCheck s.kWords (s.reg m) true :: restList)) s r)
    (hrest : List.Forall₂ CheckAgrees rest restList) (hpost : s.reg m % 2 = 1 → post (r.complete .ok)) :
    RunsAs i s (oddModulusChecks s m ++ rest) post := by
  rw [modCheck_true, firstErr_append] at hx
  refine runsAs_checked hx (List.rel_append (oddModulusChecks_agree s m) hrest) fun hnone => ?_
  exact hpost (odd_of_oddModulusChecks (List.forall_mem_append.1 hnone).1)

/-- A command whose one check is ModCheck(x[M], true) and which writes the modulus prime for a radix 2^w (R171). -/
theorem runsAs_modulusPrime {i : Instr} {s : State} {d m : Reg} {w : Nat}
    (hx : exec i s = checked (modCheck s.kWords (s.reg m) true) s (s.setReg d (modulusPrime (s.reg m) (2 ^ w))))
    (hw : s.reg m % 2 = 1 → w ≠ 0) :
    RunsAs i s (oddModulusChecks s m)
      (fun t => WritesRegs [d] s t ∧ t.reg d < 2 ^ w ∧ (s.reg m * t.reg d + 1) % 2 ^ w = 0) := by
  rw [← firstErr_singleton (modCheck _ _ _)] at hx
  rw [← List.append_nil (oddModulusChecks s m)]
  refine runsAs_oddModulus hx .nil fun hodd => ?_
  obtain ⟨hframe, hreg⟩ := writesRegs_and_reg s d (modulusPrime (s.reg m) (2 ^ w))
  rw [hreg]
  exact ⟨hframe, modulusPrime_spec hodd (hw hodd)⟩

/-- A command whose one check is ModCheck(x[M], false) and which writes one register. -/
theorem runsAs_modulus_setReg {i : Instr} {s : State} {d m : Reg} {v w : Nat}
    (hx : exec i s = checked (modCheck s.kWords (s.reg m) false) s (s.setReg d v)) (hv : v = w) :
    RunsAs i s (modulusChecks s m) (fun t => WritesRegs [d] s t ∧ t.reg d = w) := by
  rw [modCheck_false] at hx
  subst hv
  exact runsAs_checked hx (modulusChecks_agree s m) fun _ => writesRegs_and_reg s d v

/-! ### The results of REDC and MONTPRO -/

/-- x[D] is the residue below x[M] whose product with R is v modulo x[M], and nothing else is written (R173, R174). -/
def WritesMontgomeryQuotient (d m : Reg) (v : Nat) (s t : State) : Prop :=
  WritesRegs [d] s t ∧ t.reg d < s.reg m ∧ t.reg d * 2 ^ (32 * ulen (s.reg m)) % s.reg m = v % s.reg m

/-- x[D] is some value of a register, and nothing else is written (R170). -/
def WritesUnspecified (d : Reg) (s t : State) : Prop :=
  WritesRegsFree [d] s t ∧ t.reg d < 2 ^ registerBits s.kWords

theorem withPrime_unspecified (d : Reg) (v : Nat) (s : State) :
    WritesUnspecified d s ((withPrime false d v s).complete .ok) := by
  refine ⟨writesRegsFree_one s d s.freeRegValue, ?_⟩
  have hreg : ((withPrime false d v s).complete .ok).reg d = s.freeRegValue := s.setReg_reg_same d _
  exact hreg.trans_lt (freeRegValue_lt s)

/-- Both values are a product with inv(R, n), reduced below an odd n, so R cancels (R173, R174). -/
theorem withPrime_montgomeryQuotient {s : State} {m : Reg} (hodd : s.reg m % 2 = 1) (d : Reg) (v : Nat) :
    WritesMontgomeryQuotient d m v s ((withPrime true d (redc v (s.reg m)) s).complete .ok) := by
  obtain ⟨hframe, hreg⟩ := writesRegs_and_reg s d (redc v (s.reg m))
  obtain ⟨hlt, hmul⟩ := redc_spec (t := v) hodd
  exact ⟨hframe, hreg.trans_lt hlt, (congrArg (· * radix (s.reg m) % s.reg m) hreg).trans hmul⟩

/-- The results of a command that reads an n' which is right where p holds (R170). -/
theorem withPrime_results {s : State} {m : Reg} (hodd : s.reg m % 2 = 1) (p : Prop) [Decidable p] (d : Reg) (v : Nat) :
    let t := (withPrime (decide p) d (redc v (s.reg m)) s).complete .ok
    if p then WritesMontgomeryQuotient d m v s t else WritesUnspecified d s t := by
  by_cases hp : p
  · simpa [hp] using withPrime_montgomeryQuotient hodd d v
  · simpa [hp] using withPrime_unspecified d (redc v (s.reg m)) s

/-- MONTPRO with an n' that is right where p holds (R174). The Montgomery product of a and b is REDC's value for
a · b. -/
theorem runsAs_montProduct {i : Instr} {s : State} {d a b m : Reg} {p : Prop} [Decidable p]
    (hx : exec i s = montProduct (decide p) d a b m s) :
    RunsAs i s (oddModulusChecks s m ++ rangeChecks s a m ++ rangeChecks s b m)
      (fun t => if p then WritesMontgomeryQuotient d m (s.reg a * s.reg b) s t else WritesUnspecified d s t) := by
  rw [List.append_assoc]
  exact runsAs_oddModulus hx (List.rel_append (rangeChecks_agree s a m) (rangeChecks_agree s b m)) fun hodd =>
    withPrime_results hodd p d (s.reg a * s.reg b)

/-! ### The statements -/

/-- Settles O17: n is odd, so it has an inverse modulo each of the two powers of 2; R is not 1, as n is not 0. -/
theorem mprimeIsNegatedInverse : Obligations.MprimeIsNegatedInverse := by
  refine fun d m s => ⟨runsAs_modulusPrime rfl fun _ => by decide, runsAs_modulusPrime rfl fun hodd => ?_⟩
  have hlen : 0 < ulen (s.reg m) := lt_ulen_iff.2 (by omega)
  omega

/-- Settles O18: both commands reduce a power of R, and R² = 2^(64·ulen(n)). -/
theorem mrconstReducesRadix : Obligations.MrconstReducesRadix := by
  refine fun d m s => ⟨runsAs_modulus_setReg rfl rfl, runsAs_modulus_setReg rfl ?_⟩
  rw [radix, ← pow_add, ← add_mul]

/-- Settles O19: where the low word of x[E] is a right n', the value is the residue that R takes back to T. -/
theorem redcDividesByRadix : Obligations.RedcDividesByRadix :=
  fun d a _ _ s => runsAs_oddModulus rfl (.cons (checkAgrees_errIf (by decide) rfl) .nil) fun hodd =>
    withPrime_results hodd _ d (s.reg a)

/-- Settles O20: the variants are one product, and differ in the n' they read; MONTPRO.B reads none. -/
theorem montproIsMontgomeryProduct : Obligations.MontproIsMontgomeryProduct := by
  refine fun d a b m e s => ⟨?full, ?none, ?word⟩
  case full => exact runsAs_montProduct rfl
  case none =>
    have hrun := runsAs_montProduct (i := .montproB d a b m e) (s := s) (p := True) rfl
    simp only [if_true] at hrun
    exact hrun
  case word => exact runsAs_montProduct rfl

/-- MULMOD's Montgomery variants differ from the classic one in the check for an odd modulus only (R165, R175). -/
theorem mulModulo_of_odd {s : State} {m : Reg} (h : s.reg m % 2 = 1) (d a b : Reg) :
    mulModulo true d a b m s = mulModulo false d a b m s := by
  rw [mulModulo, mulModulo, modCheck_of_odd h]

/-- Settles O21: with a right n' each variant of MONTPRO computes the product that MONTPRO.B computes without one; an
odd modulus passes the check that MULMOD's Montgomery variants add. -/
theorem montgomeryVariantsAgree : Obligations.MontgomeryVariantsAgree := by
  refine ⟨fun d a b m e e' e'' s hfull hword => ⟨?_, ?_⟩, fun d a b m s hodd => ?_⟩
  · exact congrArg (montProduct · d a b m s) (decide_eq_true hfull)
  · exact congrArg (montProduct · d a b m s) (decide_eq_true hword)
  · have hmul := mulModulo_of_odd hodd d a b
    exact ⟨hmul, hmul, hmul⟩

end Sys2Proof.Machine
end

section
/-! The commands of 47_exponentiation.md: the residue of a power. -/

namespace Sys2Proof.Machine

/-- A variant of EXP runs by its ModCheck, whose checks are `checks`, and the range check of the base; it writes the
residue of the power itself, since the squarings of `powMod` go through every bit of the exponent (R190). -/
theorem runsAs_exponentiate {i : Instr} {s : State} {d a b m : Reg} {needOdd : Bool} {checks : List (Prop × ErrCode)}
    {modulusList : List (Option ErrCode)} (hx : exec i s = exponentiate needOdd d a b m s)
    (hmod : modCheck s.kWords (s.reg m) needOdd = firstErr modulusList)
    (hagree : List.Forall₂ CheckAgrees checks modulusList) :
    RunsAs i s (checks ++ rangeChecks s a m)
      (fun t => WritesRegs [d] s t ∧ t.reg d = s.reg a ^ s.reg b % s.reg m) := by
  rw [exponentiate, hmod, firstErr_append, powMod_eq] at hx
  exact runsAs_checked hx (List.rel_append hagree (rangeChecks_agree s a m)) fun _ => writesRegs_and_reg s d _

/-- Settles O22: the three variants are one exponentiation; EXP.MONT's ModCheck is the one that asks for an odd
modulus. -/
theorem expIsExactResidue : Obligations.ExpIsExactResidue := by
  refine fun d a b m s => ⟨fun i hi => ?anyModulus, ?oddModulus⟩
  case anyModulus =>
    have hx : exec i s = exponentiate false d a b m s := by
      obtain rfl | rfl : i = .exp d a b m ∨ i = .expK4 d a b m := by simpa using hi
      · rfl
      · rfl
    exact runsAs_exponentiate hx (modCheck_false s m) (modulusChecks_agree s m)
  case oddModulus =>
    exact runsAs_exponentiate rfl (modCheck_true s m) (oddModulusChecks_agree s m)

end Sys2Proof.Machine
end

section
/-! The commands of 48_gcd_inversion.md: the gcd, its coefficients, and the modular inverse. -/

namespace Sys2Proof.Machine

/-! ### GCD and BXGCD -/

/-- Settles O23: GCD has no check, and writes `Nat.gcd`, which is known by its divisors. -/
theorem gcdIsGreatestCommonDivisor : Obligations.GcdIsGreatestCommonDivisor := by
  intro d a b s
  obtain ⟨t, ht, hframe, hreg⟩ := succeeds_setReg (i := .gcd d a b) (s := s) rfl rfl
  refine ⟨t, ht, hframe, ?_⟩
  rw [hreg]
  exact ⟨Nat.gcd_dvd_left _ _, Nat.gcd_dvd_right _ _, fun c => Nat.dvd_gcd⟩

/-- Settles O24: the destinations are different where the check passes, so each holds the value written to it; a
free value is wrapped to the register. -/
theorem bxgcdGcdExactCoefficientFree : Obligations.BxgcdGcdExactCoefficientFree := by
  intro d e a b s
  refine runsAs_checked_one rfl (checkAgrees_errIf (by decide) rfl) fun hne => ⟨writesRegsFree_two s d e _ _, ?_, ?_⟩
  · rw [State.complete_reg, State.useFree_reg, State.setReg_reg_ne _ _ hne, State.setReg_reg_same]
  · rw [State.complete_reg, State.useFree_reg, State.setReg_reg_same]
    exact freeRegValue_lt s

/-! ### EEA -/

/-- With fuel above r1, `eeaLoop` ends where the rule's loop ends (R202). -/
theorem eeaRun_eeaLoop (fuel : Nat) : ∀ {r0 r1 : Nat} (s0 s1 : Int), r1 < fuel →
    EeaRun r0 r1 s0 s1 (eeaLoop fuel r0 r1 s0 s1).1 (eeaLoop fuel r0 r1 s0 s1).2 := by
  induction fuel with
  | zero => exact fun _ _ h => absurd h (Nat.not_lt_zero _)
  | succ fuel ih =>
    intro r0 r1 s0 s1 hfuel
    rw [eeaLoop]
    split
    · next h =>
      subst h
      exact .done r0 s0 s1
    · next h =>
      have hless : r0 - r0 / r1 * r1 < r1 := by
        rw [← Nat.mod_eq_sub_div_mul]
        exact Nat.mod_lt r0 (Nat.pos_of_ne_zero h)
      exact .turn r0 r1 s0 s1 _ _ h (ih _ _ (by omega))

/-- The outputs of `eea` are what the rule's loop ends with, the coefficient reduced modulo b (R202). -/
theorem eea_run (a : Nat) {b : Nat} (hb : b ≠ 0) :
    ∃ x, EeaRun a b 1 0 (eea a b).1 x ∧ ((eea a b).2 : Int) = x % (b : Int) :=
  ⟨_, eeaRun_eeaLoop (b + 1) 1 0 (Nat.lt_succ_self b), residue_toNat hb _⟩

/-- Settles O25: the model's loop is the rule's, with fuel for every turn of it. -/
theorem eeaRunsTheRecurrence : Obligations.EeaRunsTheRecurrence := by
  intro d e a b s
  refine runsAs_two_outputs rfl fun hdivisor t hframe hgcd hcoefficient => ?_
  rw [hgcd, hcoefficient]
  refine ⟨hframe, eea_run (s.reg a) hdivisor, eea_gcd _ _, ?_⟩
  rw [eea_congr hdivisor, eea_gcd]

/-! ### INV -/

/-- The inverse of the residue is an inverse of the value itself (R203). -/
theorem mul_invMod_mod {a n : Nat} (hn : n ≠ 0) (h : Nat.gcd a n = 1) : a * invMod (a % n) n % n = 1 % n := by
  have hgcd : Nat.gcd (a % n) n = 1 := by rw [← Nat.gcd_rec, Nat.gcd_comm, h]
  rw [← Nat.mod_mul_mod, invMod_mul hn hgcd]

/-- Settles O26: where the checks pass, the residue of x[A] is a unit modulo a non-zero modulus. -/
theorem invIsModularInverse : Obligations.InvIsModularInverse := by
  intro d a m s
  have hx : exec (.inv d a m) s = checked (firstErr (modulusCheckList s m ++
      [errIf (Nat.gcd (s.reg a) (s.reg m) ≠ 1) .notInvertible])) s
      (s.setReg d (invMod (s.reg a % s.reg m) (s.reg m))) := by
    rw [← firstErr_append, ← modCheck_false]
    rfl
  refine runsAs_checked hx (List.rel_append (modulusChecks_agree s m)
    (.cons (checkAgrees_errIf (by decide) rfl) .nil)) fun hnone => ?_
  have hn : s.reg m ≠ 0 := hnone (s.reg m = 0, .divisionByZero) (by simp [modulusChecks])
  have hgcd : ¬ Nat.gcd (s.reg a) (s.reg m) ≠ 1 :=
    hnone (Nat.gcd (s.reg a) (s.reg m) ≠ 1, .notInvertible) (by simp)
  obtain ⟨hframe, hreg⟩ := writesRegs_and_reg s d (invMod (s.reg a % s.reg m) (s.reg m))
  rw [hreg]
  exact ⟨hframe, invMod_lt hn, mul_invMod_mod hn (not_not.1 hgcd)⟩

end Sys2Proof.Machine
end

section
/-! The commands of 49_gf2m.md: sum, product, division, remainder and inverse of binary polynomials. -/

namespace Sys2Proof.Machine

/-! ### The bits of the carry-less product -/

/-- The i < n with a[j−i] = b[i] = 1, whose parity is bit j of the first n terms of the product. -/
def productTerms (a b j n : Nat) : List Nat := (List.range n).filter (fun i => a.testBit (j - i) && b.testBit i)

theorem productBit_eq (a b j : Nat) : productBit a b j = ((productTerms a b j (j + 1)).length % 2 == 1) := rfl

theorem length_productTerms_succ (a b j n : Nat) :
    (productTerms a b j (n + 1)).length = (productTerms a b j n).length + (a.testBit (j - n) && b.testBit n).toNat := by
  rw [productTerms, List.range_succ, List.filter_append, List.length_append, productTerms]
  cases h : a.testBit (j - n) && b.testBit n <;> simp [h]

/-- Adding one bit to a count adds it to the parity. -/
theorem parity_add_toNat (n : Nat) (c : Bool) : ((n + c.toNat) % 2 == 1) = ((n % 2 == 1) != c) := by
  obtain h | h := Nat.mod_two_eq_zero_or_one n <;> cases c <;> simp [Nat.add_mod, h]

/-- Bit j of the term a << n. -/
theorem testBit_term (a b j n : Nat) :
    (if b.testBit n then a <<< n else 0).testBit j = (decide (n ≤ j) && (a.testBit (j - n) && b.testBit n)) := by
  cases h : b.testBit n <;> simp [Nat.testBit_shiftLeft]

/-- Bit j of the first n ≤ j + 1 terms. -/
theorem clmulBits_testBit (a b j : Nat) {n : Nat} (hn : n ≤ j + 1) :
    (clmulBits a b n).testBit j = ((productTerms a b j n).length % 2 == 1) := by
  induction n with
  | zero => exact Nat.zero_testBit j
  | succ n ih =>
    have hle : n ≤ j := by omega
    rw [clmulBits_succ, Nat.testBit_xor, ih (by omega), testBit_term, decide_eq_true hle, Bool.true_and,
      length_productTerms_succ, parity_add_toNat]

/-- The terms above j do not reach bit j. -/
theorem clmulBits_testBit_above (a b j m : Nat) :
    (clmulBits a b (j + 1 + m)).testBit j = (clmulBits a b (j + 1)).testBit j := by
  induction m with
  | zero => rfl
  | succ m ih =>
    have hlt : ¬ j + 1 + m ≤ j := by omega
    rw [← Nat.add_assoc, clmulBits_succ, Nat.testBit_xor, ih, testBit_term, decide_eq_false hlt, Bool.false_and,
      Bool.xor_false]

/-- Bit j of the carry-less product (00_scope.md R13). -/
theorem clmul_testBit (a b j : Nat) : (clmul a b).testBit j = productBit a b j := by
  rw [← clmulBits_stable a b (Nat.le_add_left (msb b) (j + 1)), clmulBits_testBit_above,
    clmulBits_testBit a b j (Nat.le_refl _), productBit_eq]

/-- Settles O27: bit by bit, and GFMUL keeps the bits below 32N. -/
theorem gfaddGfmulBitwise : Obligations.GfaddGfmulBitwise := by
  refine fun d a b s =>
    ⟨⟨_, rfl, writesRegs_one s d _, fun j => ?gfadd⟩, ⟨_, rfl, writesRegs_one s d _, fun j => ?gfmul⟩⟩
  case gfadd => rw [State.complete_reg, State.setReg_reg_same, Nat.testBit_xor]
  case gfmul =>
    rw [State.complete_reg, State.setReg_reg_same, wrapN, registerLimit, Nat.testBit_mod_two_pow, clmul_testBit]

/-! ### Division -/

/-- Settles O28: the division of polynomials has one quotient and remainder. -/
theorem gfdivGivesQuotientRemainder : Obligations.GfdivGivesQuotientRemainder := by
  intro d e a b s
  refine runsAs_two_outputs rfl fun hdivisor t hframe hquotient hremainder => ?_
  obtain ⟨hdivision, hdegree⟩ := pdivmod_spec (s.reg a) hdivisor
  rw [hquotient, hremainder]
  exact ⟨hframe, hdivision.symm, hdegree, fun q r hq hr => pdivmod_unique (hq.symm.trans hdivision.symm) hr hdegree⟩

/-- A command whose one check is for a zero polynomial x[M], and which writes a remainder by it. -/
theorem runsAs_pmod {i : Instr} {s : State} {d m : Reg} {v : Nat}
    (hx : exec i s = checked (zeroCheck (s.reg m)) s (s.setReg d (pmod v (s.reg m)))) :
    RunsAs i s [(s.reg m = 0, .divisionByZero)]
      (fun t => WritesRegs [d] s t ∧ msb (t.reg d) < msb (s.reg m) ∧ ∃ q, v = clmul q (s.reg m) ^^^ t.reg d) := by
  refine runsAs_checked_one hx (checkAgrees_errIf (by decide) rfl) fun hp => ?_
  obtain ⟨hframe, hreg⟩ := writesRegs_and_reg s d (pmod v (s.reg m))
  obtain ⟨hdivision, hdegree⟩ := pdivmod_spec v hp
  rw [hreg]
  exact ⟨hframe, hdegree, pdiv v (s.reg m), hdivision.symm⟩

/-- Settles O29: both commands write a remainder, of x[A] and of the wrapped product. -/
theorem gfmodGfmulmodReduce : Obligations.GfmodGfmulmodReduce :=
  fun _ _ _ _ _ => ⟨runsAs_pmod rfl, runsAs_pmod rfl⟩

/-! ### The inverse -/

/-- A factor of 1 has degree 0. -/
theorem msb_le_one_of_clmul_eq_one {c f : Nat} (h : clmul c f = 1) : msb f ≤ 1 := by
  have hc : c ≠ 0 := by rintro rfl; simp at h
  have hf : f ≠ 0 := by rintro rfl; simp at h
  have hdegree : msb 1 = msb c + msb f - 1 := h ▸ msb_clmul hc hf
  have hone : msb 1 = 1 := rfl
  have hpos := msb_pos hc
  omega

/-- The gcd is not 1 exactly where there is a common factor of degree at least 1: a common factor divides the gcd,
which is a combination of u and p, and the gcd is itself a common factor (R225). For u = p = 0 the gcd is 0, and
every polynomial is a common factor. -/
theorem exists_common_factor_iff {u p : Nat} :
    (∃ f x y, 2 ≤ msb f ∧ clmul x f = u ∧ clmul y f = p) ↔ pgcd u p ≠ 1 := by
  obtain ⟨⟨t, hcombination⟩, ⟨y, hu⟩, ⟨z, hp⟩⟩ := pegcd_spec u p
  constructor
  · rintro ⟨f, x, w, hf, rfl, rfl⟩ hone
    rw [hone, ← clmul_assoc, ← clmul_assoc, ← clmul_xor_left] at hcombination
    exact absurd (msb_le_one_of_clmul_eq_one hcombination) (by omega)
  · intro hne
    by_cases hzero : pgcd u p = 0
    · rw [hzero, clmul_zero_right] at hu hp
      exact ⟨2, 0, 0, by decide, (clmul_zero_left 2).trans hu, (clmul_zero_left 2).trans hp⟩
    · exact ⟨pgcd u p, y, z, lt_msb_iff.2 (by omega), hu, hp⟩

/-- A check whose condition is decided by an equivalent one. -/
theorem checkAgrees_errIf_of_iff {p q : Prop} [Decidable q] {e : ErrCode} (he : e ≠ .ok) (h : p ↔ q) :
    CheckAgrees (p, e) (errIf (decide q) e) := by
  rw [propext h]
  exact checkAgrees_errIf he rfl

/-- Settles O30: the check on the gcd is the statement's on common factors, and where it passes the coefficient of
the reduced value is its inverse. -/
theorem gfinvIsPolynomialInverse : Obligations.GfinvIsPolynomialInverse := by
  intro d a m s
  refine runsAs_checked rfl (.cons (checkAgrees_errIf (by decide) rfl)
    (.cons (checkAgrees_errIf_of_iff (by decide) exists_common_factor_iff) .nil)) fun hnone => ?_
  obtain ⟨hp, hfactor, -⟩ := by simpa only [NoneFailing, List.forall_mem_cons] using hnone
  have hgcd : pgcd (pmod (s.reg a) (s.reg m)) (s.reg m) = 1 := not_not.1 (mt exists_common_factor_iff.2 hfactor)
  obtain ⟨hframe, hreg⟩ := writesRegs_and_reg s d (pinv (pmod (s.reg a) (s.reg m)) (s.reg m))
  rw [hreg]
  exact ⟨hframe, pinv_spec hp hgcd⟩

end Sys2Proof.Machine
end

section
/-! Completion and errors: the rules of 60_exceptions.md that hold of every command and of every word. -/

namespace Sys2Proof.Machine

/-! ### Completion -/

/-- Every command completes, with Ok or with an error of its own checks (R240, R246). -/
theorem exec_completes (i : Instr) (s : State) : ∃ t e, exec i s = .next t ∧ CompletesWith e s t ∧
    e ≠ .invariantViolation ∧ e ≠ .illegalCommand := by
  obtain ⟨c, r, shape⟩ := exec_shape i s
  rw [shape.eq]
  obtain ⟨e, hc, hx⟩ | ⟨-, hx⟩ := checked_cases c s r
  · exact ⟨_, e, hx, completesWith_complete (keepsHostSide_refl s) rfl, (shape.good e hc).2⟩
  · exact ⟨_, .ok, hx, completesWith_complete shape.host shape.anyErr, by decide, by decide⟩

/-- All that the execution of a word can be: a command's, or the end of an illegal word (R87, R88). -/
theorem execWord_cases (w : Word) (s : State) :
    (∃ i, execWord w s = exec i s) ∨ execWord w s = .next (s.complete .illegalCommand) := by
  by_cases h : ∃ i, decode w = .ok i
  · obtain ⟨i, hi⟩ := h
    exact .inl ⟨i, execWord_of_decode hi s⟩
  · exact .inr ((execWord_of_not_decode h s).trans (raiseErr_eq _ s))

/-- Every word completes (R246). -/
theorem execWord_completes (w : Word) (s : State) : ∃ t e, execWord w s = .next t ∧ CompletesWith e s t ∧
    e ≠ .invariantViolation := by
  obtain ⟨i, hx⟩ | hx := execWord_cases w s
  · obtain ⟨t, e, ht, hcompletes, hdefined, -⟩ := exec_completes i s
    exact ⟨t, e, hx.trans ht, hcompletes, hdefined⟩
  · exact ⟨_, _, hx, completesWith_complete (keepsHostSide_refl s) rfl, by decide⟩

/-- Settles O31: commands complete by their shape, and words as a command or as an illegal word. -/
theorem everyCommandCompletes : Obligations.EveryCommandCompletes := ⟨exec_completes, execWord_completes⟩

/-! ### Errors -/

/-- Settles O32: an error comes from a check, or from the decoder, and both raise it in the state before the
command. -/
theorem errorsArePrecise : Obligations.ErrorsArePrecise := by
  intro w s t ht herr
  obtain ⟨i, hx⟩ | hx := execWord_cases w s
  · obtain ⟨c, r, shape⟩ := exec_shape i s
    obtain ⟨e, -, rfl⟩ | ⟨-, rfl⟩ := shape.next_cases (hx.symm.trans ht)
    · exact failsWith_complete s herr
    · exact absurd rfl herr
  · obtain rfl := Host.Outcome.next.inj (hx.symm.trans ht)
    exact failsWith_complete s herr

/-! ### Completion under polling -/

/-- The engine's move ends with no command in the engine: the pending one completes, and with none pending BUSY is 0
already (R246, R260). -/
theorem engineMove_leaves_idle {s : State} (h : Inv s) :
    ∃ t, engineMove s = .next t ∧ t.busy = false ∧ t.pend = none := by
  rcases hp : s.pend with _ | p
  · exact ⟨s, engineMove_none hp, by rw [h.busy_iff, hp]; rfl, hp⟩
  · obtain ⟨t, e, ht, ⟨-, -, hpend, hbusy, -⟩, -⟩ := execWord_completes p.word s
    refine ⟨t, ?_, hbusy, hpend⟩
    rw [engineMove, hp]
    exact ht

/-- Settles O54, by induction on the polls: a poll changes nothing that the invariant speaks of, and after the last
one the engine moves. -/
theorem acceptedCommandCompletes : Obligations.AcceptedCommandCompletes := by
  intro s polls
  induction polls generalizing s with
  | zero =>
    intro hs hturns
    obtain ⟨t, ht, hidle⟩ := engineMove_leaves_idle hs
    exact ⟨t, run_succ ((step_no_turns hs.build hturns).trans ht), hidle⟩
  | succ polls ih =>
    intro hs hturns
    obtain ⟨v, n, hpoll⟩ := readsHaveNoSideEffect s 0x00C _ hs.build (by decide) rfl hturns
    rw [run_succ hpoll]
    exact ih _ (hs.of_unmentioned s.anyErr s.ovr _ v n) rfl

end Sys2Proof.Machine
end
